-- ==== Sys2Proof/Word.lean ====
section
/-! DEFINITION. The word types of the memory bus (00_scope.md R11, R13): bytes, bus addresses, and the plain
data a byte array is kept as. -/

namespace Sys2Proof

/-- A byte, `u8` (R13(b)). -/
abbrev Byte := BitVec 8

/-- A bus address, `u16` (R13(b), R39). -/
abbrev Addr := BitVec 16

/-- A byte array as (offset, byte) pairs, offsets strictly rising, no pair equal to what an unlisted offset reads as. -/
abbrev Mem := List Host.Cell

/-- The sentinel of open bus and of disabled or absent storage (glossary; R57, R125). -/
abbrev sentinel : Byte := 0xFF

end Sys2Proof
end

