-- ==== Sys2Proof/Syntax.lean ====
section
/-! DEFINITION. The transactions as syntax: the three raw formats of 30_encoding.md (R59–R61) and the 36
operations of R64, one constructor of `Instr` per row of spec/opcode_table.json. -/

namespace Sys2Proof

/-- The eight buttons in the setter's listing order (R34, R60). -/
inductive Button where
  | up | down | left | right | a | b | start | select
  deriving DecidableEq, Repr

/-- The three transaction formats (R59, R60, R61). The interface carries the format (R67). -/
inductive Format where
  | bus25 | btn4 | view14
  deriving DecidableEq, Repr

/-- One raw transaction as an agent presents it: a word of its interface's format. No agent has an identifier at the
bus (R115), so none stands here. -/
inductive Transaction where
  /-- `BUS25`: bit 24 `W`, bits 23:8 `A`, bits 7:0 `D` (R59). -/
  | bus (w : BitVec 25)
  /-- `BTN4`: bits 3:1 `B`, bit 0 `P` (R60). -/
  | btn (w : BitVec 4)
  /-- `VIEW14`: bit 13 `G`, bits 12:0 `O` (R61). -/
  | view (w : BitVec 14)
  deriving DecidableEq, Repr

/-- The complete operation set (R64). A bus operation over a range carries its address `A`; a write carries its data
`D`; the `D` of a read is ignored (R66) and is no operand. -/
inductive Instr where
  | rdBoot (a : Addr)
  | rdRom0 (a : Addr)
  | rdRomX (a : Addr)
  | rdVram (a : Addr)
  | rdCram (a : Addr)
  | rdWram (a : Addr)
  | rdEcho (a : Addr)
  | rdOam (a : Addr)
  | rdUnusable (a : Addr)
  | rdJoyp
  | rdIf
  | rdPpureg (a : Addr)
  | rdBootflag
  | rdHram (a : Addr)
  | rdIe
  | rdIoUnmapped (a : Addr)
  | wrRamen (a : Addr) (d : Byte)
  | wrRombank (a : Addr) (d : Byte)
  | wrSecondary (a : Addr) (d : Byte)
  | wrMode (a : Addr) (d : Byte)
  | wrVram (a : Addr) (d : Byte)
  | wrCram (a : Addr) (d : Byte)
  | wrWram (a : Addr) (d : Byte)
  | wrEcho (a : Addr) (d : Byte)
  | wrOam (a : Addr) (d : Byte)
  | wrUnusable (a : Addr) (d : Byte)
  | wrJoyp (d : Byte)
  | wrIf (d : Byte)
  | wrPpureg (a : Addr) (d : Byte)
  | wrBootflag (d : Byte)
  | wrHram (a : Addr) (d : Byte)
  | wrIe (d : Byte)
  | wrIoUnmapped (a : Addr) (d : Byte)
  | setButton (button : Button) (p : Bool)
  | viewVram (o : BitVec 13)
  | viewOam (o : BitVec 13)
  deriving DecidableEq, Repr

/-- The address regions of the decode tables (R41, R42), one tag for each row of R42's table; the four unmapped IO
ranges share a tag. -/
inductive Region where
  /-- 0x0000–0x00FF. -/
  | bootOverlay
  /-- 0x0100–0x1FFF. -/
  | rom0RamEnable
  /-- 0x2000–0x3FFF. -/
  | rom0RomBank
  /-- 0x4000–0x5FFF. -/
  | romXSecondary
  /-- 0x6000–0x7FFF. -/
  | romXMode
  /-- 0x8000–0x9FFF. -/
  | video
  /-- 0xA000–0xBFFF. -/
  | cartridgeRam
  /-- 0xC000–0xDFFF. -/
  | work
  /-- 0xE000–0xFDFF. -/
  | echo
  /-- 0xFE00–0xFE9F. -/
  | objectAttribute
  /-- 0xFEA0–0xFEFF. -/
  | unusable
  /-- 0xFF00. -/
  | joypad
  /-- 0xFF0F. -/
  | interruptFlag
  /-- 0xFF40–0xFF4B. -/
  | pictureUnit
  /-- 0xFF50. -/
  | bootFlag
  /-- 0xFF80–0xFFFE. -/
  | highRam
  /-- 0xFFFF. -/
  | interruptEnable
  /-- 0xFF01–0xFF0E, 0xFF10–0xFF3F, 0xFF4C–0xFF4F, 0xFF51–0xFF7F. -/
  | ioUnmapped
  deriving DecidableEq, Repr

/-- The owners of R41's table. -/
inductive Owner where
  | bootRom | cartridge | videoSegment | workSegment | echoMirror | objectAttributeSegment | unusable | ioRegisterBlock
  deriving DecidableEq, Repr

/-- The spec's assembler notation (R68) and its pseudo-operations (R69). -/
inductive Asm where
  /-- `RD a`. -/
  | rd (a : Addr)
  /-- `WR a, d`. -/
  | wr (a : Addr) (d : Byte)
  /-- `BTN name, p`. -/
  | btn (button : Button) (p : Bool)
  /-- `VIEW.V o`. -/
  | viewV (o : BitVec 13)
  /-- `VIEW.O o`. -/
  | viewO (o : BitVec 13)
  | ramOn | ramOff
  | romBank (n : Byte)
  | secBank (n : Byte)
  | mode (m : Byte)
  | bootOff
  | joySel (s : Byte)
  deriving DecidableEq, Repr

/-- Why a raw number is no word of a format: raised by `Transaction.ofBits` when a bit stands above the format's width,
or when no format has that many bits. Safe: no interface carries such a word (R59–R61, R67). -/
inductive Reject where
  | wordTooWide (f : Format) (w : Nat)
  | noSuchFormat (nbits : Nat)
  deriving DecidableEq, Repr

end Sys2Proof
end

