-- ==== Sys2Proof/Config.lean ====
section
/-! DEFINITION. What a session fixes (`CFG`, 00_scope.md R6), the free values the spec leaves open, and the one
configuration that `State.reset` starts. -/

namespace Sys2Proof

/-- The controller variants (R2, R6). -/
inductive Mbc where
  | none | type1
  deriving DecidableEq, Repr

/-- The bounds-safe bank policy (R10). -/
inductive BankBound where
  | modulo | clamp
  deriving DecidableEq, Repr

/-- `CFG` (R6): fixed for the session (R19). `rom` and `boot` list the image's bytes; an unlisted offset of an image is
the byte 0x00 (log entry 8: a representation of the host's byte sequence, no claim about the hardware). -/
structure Cfg where
  /-- `MBC`. -/
  mbc : Mbc
  /-- `ROM`. -/
  rom : Mem
  /-- `ROM_SIZE` (R7). -/
  romSize : Nat
  /-- `RAM_SIZE` (R8). -/
  ramSize : Nat
  /-- `BOOT_PRESENT`. -/
  bootPresent : Bool
  /-- `BOOT`. -/
  boot : Mem
  /-- `BOOT_LEN` (R9). -/
  bootLen : Nat
  /-- `CRAM_INIT`; `none` when the host supplies nothing (R27, D19). -/
  cramInit : Option Mem
  /-- `BANK_BOUND` (R10). -/
  bankBound : BankBound
  deriving DecidableEq, Repr

/-- FREE VALUE (R27, D19; log entry 7): the byte of Persistent RAM at an offset at session start, when the host
supplies no `CRAM_INIT`: "each byte is an unconstrained draw". -/
opaque Config.cramDraw : Nat → Byte

/-- FREE VALUE (R132, D24; log entry 3): what the external driver presents next, for the n-th time that
`State.schedule` has run out. `none`: no agent issues a transaction then. Any sequence of transactions is admitted. -/
opaque Config.driver : Nat → Option Transaction

/-- DESIGN CHOICE (log entry 2, unsafe for a claim about `State.reset` alone): the configuration that `State.reset`
starts. The spec fixes none, and `State.ofCfg` starts any. Its `CRAM_INIT` is all 0x00, as in every configuration of
95_test_vectors.md, and its policy the default of R10. -/
def Config.defaultCfg : Cfg where
  mbc := .type1
  rom := []
  romSize := 0x100000
  ramSize := 0x8000
  bootPresent := true
  boot := []
  bootLen := 256
  cramInit := some []
  bankBound := .modulo

end Sys2Proof
end

