-- ==== Sys2Proof/WellFormed.lean ====
section
/-! DEFINITION. Well-formed operations: a bus operation's address lies in the range of its row of the table of
20_memory.md R42. Every other operand is legal at every value (R66). -/

namespace Sys2Proof

/-- `lo ≤ a ≤ hi`, both ends included (R12). -/
def inRange (lo hi : Nat) (a : Addr) : Bool := decide (lo ≤ a.toNat) && decide (a.toNat ≤ hi)

/-- The four unmapped IO ranges (R112). -/
def isUnmappedIo (a : Addr) : Bool :=
  inRange 0xFF01 0xFF0E a || inRange 0xFF10 0xFF3F a || inRange 0xFF4C 0xFF4F a || inRange 0xFF51 0xFF7F a

/-- The operation's address lies in its row's range (R42; addr_lo and addr_hi of opcode_table.json). -/
def Instr.wf : Instr → Bool
  | .rdBoot a => inRange 0x0000 0x00FF a
  | .rdRom0 a => inRange 0x0000 0x3FFF a
  | .rdRomX a => inRange 0x4000 0x7FFF a
  | .rdVram a => inRange 0x8000 0x9FFF a
  | .rdCram a => inRange 0xA000 0xBFFF a
  | .rdWram a => inRange 0xC000 0xDFFF a
  | .rdEcho a => inRange 0xE000 0xFDFF a
  | .rdOam a => inRange 0xFE00 0xFE9F a
  | .rdUnusable a => inRange 0xFEA0 0xFEFF a
  | .rdJoyp => true
  | .rdIf => true
  | .rdPpureg a => inRange 0xFF40 0xFF4B a
  | .rdBootflag => true
  | .rdHram a => inRange 0xFF80 0xFFFE a
  | .rdIe => true
  | .rdIoUnmapped a => isUnmappedIo a
  | .wrRamen a _ => inRange 0x0000 0x1FFF a
  | .wrRombank a _ => inRange 0x2000 0x3FFF a
  | .wrSecondary a _ => inRange 0x4000 0x5FFF a
  | .wrMode a _ => inRange 0x6000 0x7FFF a
  | .wrVram a _ => inRange 0x8000 0x9FFF a
  | .wrCram a _ => inRange 0xA000 0xBFFF a
  | .wrWram a _ => inRange 0xC000 0xDFFF a
  | .wrEcho a _ => inRange 0xE000 0xFDFF a
  | .wrOam a _ => inRange 0xFE00 0xFE9F a
  | .wrUnusable a _ => inRange 0xFEA0 0xFEFF a
  | .wrJoyp _ => true
  | .wrIf _ => true
  | .wrPpureg a _ => inRange 0xFF40 0xFF4B a
  | .wrBootflag _ => true
  | .wrHram a _ => inRange 0xFF80 0xFFFE a
  | .wrIe _ => true
  | .wrIoUnmapped a _ => isUnmappedIo a
  | .setButton _ _ => true
  | .viewVram _ => true
  | .viewOam _ => true

/-- The state condition of the two rows that have one (R65, R82, R87; "condition" in opcode_table.json): RD_BOOT only
while the overlay is active, RD_ROM0 at 0x0000–0x00FF only while it is not. -/
def Instr.selectable (overlay : Bool) : Instr → Bool
  | .rdBoot _ => overlay
  | .rdRom0 a => !overlay || decide (0x0100 ≤ a.toNat)
  | .rdRomX _ => true
  | .rdVram _ => true
  | .rdCram _ => true
  | .rdWram _ => true
  | .rdEcho _ => true
  | .rdOam _ => true
  | .rdUnusable _ => true
  | .rdJoyp => true
  | .rdIf => true
  | .rdPpureg _ => true
  | .rdBootflag => true
  | .rdHram _ => true
  | .rdIe => true
  | .rdIoUnmapped _ => true
  | .wrRamen _ _ => true
  | .wrRombank _ _ => true
  | .wrSecondary _ _ => true
  | .wrMode _ _ => true
  | .wrVram _ _ => true
  | .wrCram _ _ => true
  | .wrWram _ _ => true
  | .wrEcho _ _ => true
  | .wrOam _ _ => true
  | .wrUnusable _ _ => true
  | .wrJoyp _ => true
  | .wrIf _ => true
  | .wrPpureg _ _ => true
  | .wrBootflag _ => true
  | .wrHram _ _ => true
  | .wrIe _ => true
  | .wrIoUnmapped _ _ => true
  | .setButton _ _ => true
  | .viewVram _ => true
  | .viewOam _ => true

end Sys2Proof
end

