-- ==== Sys2Proof/Decode.lean ====
section
/-! DEFINITION. Decoding (30_encoding.md R59–R67, the decode table 20_memory.md R41–R43) and the encoder of the same
formats, with the spec's assembler notation (R68, R69). -/

namespace Sys2Proof

/-! ### Formats and fields -/

/-- The number of bits of a format (R59, R60, R61). -/
def Format.width : Format → Nat
  | .bus25 => 25
  | .btn4 => 4
  | .view14 => 14

/-- Bit 24, `W`: true is `writeByte` (R59). -/
def busW (w : BitVec 25) : Bool := w.getLsbD 24

/-- Bits 23:8, `A` (R59). -/
def busA (w : BitVec 25) : Addr := w.extractLsb' 8 16

/-- Bits 7:0, `D` (R59). -/
def busD (w : BitVec 25) : Byte := w.extractLsb' 0 8

/-- The word `W × 2^24 + A × 2^8 + D` (R59). -/
def busWord (write : Bool) (a : Addr) (d : Byte) : BitVec 25 :=
  BitVec.ofNat 25 (write.toNat * 2 ^ 24 + a.toNat * 2 ^ 8 + d.toNat)

/-- The word with `B` in bits 3:1 and `P` in bit 0 (R60). -/
def btnWord (index : BitVec 3) (p : Bool) : BitVec 4 := BitVec.ofNat 4 (index.toNat * 2 + p.toNat)

/-- The word with `G` in bit 13 and `O` in bits 12:0 (R61). -/
def viewWord (oam : Bool) (o : BitVec 13) : BitVec 14 := BitVec.ofNat 14 (oam.toNat * 2 ^ 13 + o.toNat)

/-- `readByte(a)`; an encoder writes a read's `D` as 0 (R39, R66). -/
def readByte (a : Addr) : Transaction := .bus (busWord false a 0)

/-- `writeByte(a, d)` (R39). -/
def writeByte (a : Addr) (d : Byte) : Transaction := .bus (busWord true a d)

/-- The button of an index (R60). -/
def buttonOf (b : BitVec 3) : Button :=
  match b.toNat with
  | 0 => .up
  | 1 => .down
  | 2 => .left
  | 3 => .right
  | 4 => .a
  | 5 => .b
  | 6 => .start
  | _ => .select

/-- The index of a button (R34, R60). -/
def buttonIndex : Button → BitVec 3
  | .up => 0
  | .down => 1
  | .left => 2
  | .right => 3
  | .a => 4
  | .b => 5
  | .start => 6
  | .select => 7

/-! ### The decode table -/

/-- The rows of R42's table in rising order. -/
def regionAt (n : Nat) : Region :=
  if n ≤ 0x00FF then .bootOverlay
  else if n ≤ 0x1FFF then .rom0RamEnable
  else if n ≤ 0x3FFF then .rom0RomBank
  else if n ≤ 0x5FFF then .romXSecondary
  else if n ≤ 0x7FFF then .romXMode
  else if n ≤ 0x9FFF then .video
  else if n ≤ 0xBFFF then .cartridgeRam
  else if n ≤ 0xDFFF then .work
  else if n ≤ 0xFDFF then .echo
  else if n ≤ 0xFE9F then .objectAttribute
  else if n ≤ 0xFEFF then .unusable
  else if n ≤ 0xFF00 then .joypad
  else if n ≤ 0xFF0E then .ioUnmapped
  else if n ≤ 0xFF0F then .interruptFlag
  else if n ≤ 0xFF3F then .ioUnmapped
  else if n ≤ 0xFF4B then .pictureUnit
  else if n ≤ 0xFF4F then .ioUnmapped
  else if n ≤ 0xFF50 then .bootFlag
  else if n ≤ 0xFF7F then .ioUnmapped
  else if n ≤ 0xFFFE then .highRam
  else .interruptEnable

/-- "One pure function `address -> region tag`" (R41). -/
def regionOf (a : Addr) : Region := regionAt a.toNat

/-- The owner of a region for a read (R41's table; the overlay matters at 0x0000–0x00FF only). -/
def regionOwner (overlay : Bool) : Region → Owner
  | .bootOverlay => if overlay then .bootRom else .cartridge
  | .rom0RamEnable => .cartridge
  | .rom0RomBank => .cartridge
  | .romXSecondary => .cartridge
  | .romXMode => .cartridge
  | .video => .videoSegment
  | .cartridgeRam => .cartridge
  | .work => .workSegment
  | .echo => .echoMirror
  | .objectAttribute => .objectAttributeSegment
  | .unusable => .unusable
  | .joypad => .ioRegisterBlock
  | .interruptFlag => .ioRegisterBlock
  | .pictureUnit => .ioRegisterBlock
  | .bootFlag => .ioRegisterBlock
  | .highRam => .ioRegisterBlock
  | .interruptEnable => .ioRegisterBlock
  | .ioUnmapped => .ioRegisterBlock

/-- The owner of an address for a read (R41). -/
def ownerOf (overlay : Bool) (a : Addr) : Owner := regionOwner overlay (regionOf a)

/-- The read column of R42's table. -/
def decodeRead (overlay : Bool) (a : Addr) : Instr :=
  match regionOf a with
  | .bootOverlay => if overlay then .rdBoot a else .rdRom0 a
  | .rom0RamEnable => .rdRom0 a
  | .rom0RomBank => .rdRom0 a
  | .romXSecondary => .rdRomX a
  | .romXMode => .rdRomX a
  | .video => .rdVram a
  | .cartridgeRam => .rdCram a
  | .work => .rdWram a
  | .echo => .rdEcho a
  | .objectAttribute => .rdOam a
  | .unusable => .rdUnusable a
  | .joypad => .rdJoyp
  | .interruptFlag => .rdIf
  | .pictureUnit => .rdPpureg a
  | .bootFlag => .rdBootflag
  | .highRam => .rdHram a
  | .interruptEnable => .rdIe
  | .ioUnmapped => .rdIoUnmapped a

/-- The write column of R42's table: a write to 0x0000–0x7FFF goes to the controller whatever the overlay state. -/
def decodeWrite (a : Addr) (d : Byte) : Instr :=
  match regionOf a with
  | .bootOverlay => .wrRamen a d
  | .rom0RamEnable => .wrRamen a d
  | .rom0RomBank => .wrRombank a d
  | .romXSecondary => .wrSecondary a d
  | .romXMode => .wrMode a d
  | .video => .wrVram a d
  | .cartridgeRam => .wrCram a d
  | .work => .wrWram a d
  | .echo => .wrEcho a d
  | .objectAttribute => .wrOam a d
  | .unusable => .wrUnusable a d
  | .joypad => .wrJoyp d
  | .interruptFlag => .wrIf d
  | .pictureUnit => .wrPpureg a d
  | .bootFlag => .wrBootflag d
  | .highRam => .wrHram a d
  | .interruptEnable => .wrIe d
  | .ioUnmapped => .wrIoUnmapped a d

/-- Decode a transaction (R65). `overlay` is `boot_overlay_active` at the time of the transaction, the only state a
decode depends on. Every word of every format is an operation (R66): a `VIEW14` word with `G = 1` and `O ≥ 160` is
`VIEW_OAM`, whose meaning raises. -/
def decode (overlay : Bool) : Transaction → Instr
  | .bus w => if busW w then decodeWrite (busA w) (busD w) else decodeRead overlay (busA w)
  | .btn w => .setButton (buttonOf (w.extractLsb' 1 3)) (w.getLsbD 0)
  | .view w => if w.getLsbD 13 then .viewOam (w.extractLsb' 0 13) else .viewVram (w.extractLsb' 0 13)

/-! ### The encoder -/

/-- The word of an operation (R59, R60, R61); the `D` of a read is 0 (R66). -/
def encode : Instr → Transaction
  | .rdBoot a => readByte a
  | .rdRom0 a => readByte a
  | .rdRomX a => readByte a
  | .rdVram a => readByte a
  | .rdCram a => readByte a
  | .rdWram a => readByte a
  | .rdEcho a => readByte a
  | .rdOam a => readByte a
  | .rdUnusable a => readByte a
  | .rdJoyp => readByte 0xFF00
  | .rdIf => readByte 0xFF0F
  | .rdPpureg a => readByte a
  | .rdBootflag => readByte 0xFF50
  | .rdHram a => readByte a
  | .rdIe => readByte 0xFFFF
  | .rdIoUnmapped a => readByte a
  | .wrRamen a d => writeByte a d
  | .wrRombank a d => writeByte a d
  | .wrSecondary a d => writeByte a d
  | .wrMode a d => writeByte a d
  | .wrVram a d => writeByte a d
  | .wrCram a d => writeByte a d
  | .wrWram a d => writeByte a d
  | .wrEcho a d => writeByte a d
  | .wrOam a d => writeByte a d
  | .wrUnusable a d => writeByte a d
  | .wrJoyp d => writeByte 0xFF00 d
  | .wrIf d => writeByte 0xFF0F d
  | .wrPpureg a d => writeByte a d
  | .wrBootflag d => writeByte 0xFF50 d
  | .wrHram a d => writeByte a d
  | .wrIe d => writeByte 0xFFFF d
  | .wrIoUnmapped a d => writeByte a d
  | .setButton button p => .btn (btnWord (buttonIndex button) p)
  | .viewVram o => .view (viewWord false o)
  | .viewOam o => .view (viewWord true o)

/-! ### Assembler notation -/

/-- The transaction a line of the spec's notation stands for (R68), a pseudo-operation by its expansion (R69). -/
def assemble : Asm → Transaction
  | .rd a => readByte a
  | .wr a d => writeByte a d
  | .btn button p => encode (.setButton button p)
  | .viewV o => encode (.viewVram o)
  | .viewO o => encode (.viewOam o)
  | .ramOn => writeByte 0x0000 0x0A
  | .ramOff => writeByte 0x0000 0x00
  | .romBank n => writeByte 0x2000 n
  | .secBank n => writeByte 0x4000 n
  | .mode m => writeByte 0x6000 m
  | .bootOff => writeByte 0xFF50 0x01
  | .joySel s => writeByte 0xFF00 s

/-! ### Raw numbers -/

/-- The format whose words the opcode table gives `nbits` bits, in whole bytes or exactly. -/
def formatOfBits (nbits : Nat) : Except Reject Format :=
  if nbits = 4 ∨ nbits = 8 then .ok .btn4
  else if nbits = 14 ∨ nbits = 16 then .ok .view14
  else if nbits = 25 ∨ nbits = 32 then .ok .bus25
  else .error (.noSuchFormat nbits)

/-- A number as a word of a format, rejected by name when a bit stands above the format's width. -/
def Transaction.ofBits (f : Format) (w : Nat) : Except Reject Transaction :=
  if 2 ^ f.width ≤ w then .error (.wordTooWide f w)
  else
    match f with
    | .bus25 => .ok (.bus (BitVec.ofNat 25 w))
    | .btn4 => .ok (.btn (BitVec.ofNat 4 w))
    | .view14 => .ok (.view (BitVec.ofNat 14 w))

/-- The transaction of a word of `nbits` bits as opcode_table.json numbers them. -/
def Transaction.ofTableWord (nbits w : Nat) : Except Reject Transaction :=
  match formatOfBits nbits with
  | .ok f => Transaction.ofBits f w
  | .error e => .error e

/-- The operation this decoder reads from a word as the opcode table numbers it. A word of 0x0000–0x00FF is RD_BOOT or
RD_ROM0 by state (R65): it is decoded here as at `State.reset` (log entry 10). -/
def decodeTableWord (nbits w : Nat) : Option Instr :=
  match Transaction.ofTableWord nbits w with
  | .ok t => some (decode Config.defaultCfg.bootPresent t)
  | .error _ => none

end Sys2Proof
end

