-- ==== Sys2Proof/Machine/Memory.lean ====
section
/-! DEFINITION. Byte arrays as sorted lists of (offset, byte) pairs: read, write, the canonical form. `fill` is what an
unlisted offset reads as. -/

namespace Sys2Proof.Machine

/-- Byte `o` of the array (R14(b)). -/
def memRead (fill : Nat → Byte) : Mem → Nat → Byte
  | [], o => fill o
  | (p, v) :: rest, o => if p = o then v else memRead fill rest o

/-- Offset `o` is no longer listed. -/
def memErase : Mem → Nat → Mem
  | [], _ => []
  | (p, v) :: rest, o => if p = o then memErase rest o else (p, v) :: memErase rest o

/-- List `o` with `v`, before the first larger offset. -/
def memInsert : Mem → Nat → Byte → Mem
  | [], o, v => [(o, v)]
  | (p, w) :: rest, o, v => if o < p then (o, v) :: (p, w) :: rest else (p, w) :: memInsert rest o v

/-- `X[o] <- v` (R14(c)); writing what an unlisted offset reads as removes the entry, so equal arrays are equal data. -/
def memWrite (fill : Nat → Byte) (m : Mem) (o : Nat) (v : Byte) : Mem :=
  if v = fill o then memErase m o else memInsert (memErase m o) o v

/-- Canonical from `lo` on: offsets strictly rising, all below `len`, no entry equal to what it would read as. -/
def memWfFrom (fill : Nat → Byte) (len lo : Nat) : Mem → Bool
  | [] => true
  | (p, v) :: rest => decide (lo ≤ p) && decide (p < len) && decide (v ≠ fill p) && memWfFrom fill len (p + 1) rest

/-- The canonical form of an array of `len` bytes. -/
def memWf (fill : Nat → Byte) (len : Nat) (m : Mem) : Bool := memWfFrom fill len 0 m

/-- The array, from offset `o` on, that holds a sequence of bytes. -/
def memOfBytes (fill : Nat → Byte) : Nat → List Byte → Mem
  | _, [] => []
  | o, b :: rest => if b = fill o then memOfBytes fill (o + 1) rest else (o, b) :: memOfBytes fill (o + 1) rest

/-- The byte every array but an unsupplied `CRAM` starts from (R28–R31, R37; images: log entry 8). -/
def zeroFill : Nat → Byte := fun _ => 0

end Sys2Proof.Machine
end

