-- ==== Sys2Proof/Machine/State.lean ====
section
/-! DEFINITION. The state of the block (10_state.md R18), the reasons a step can stop, and the state a session start
leaves (70_reset_and_hazards.md R136). -/

namespace Sys2Proof.Machine

/-- The two values of `banking_mode` (R25). -/
inductive BankingMode where
  | simple | advanced
  deriving DecidableEq, Repr

/-- The Bank Register Set (R22–R25), one layout for both controller variants (R70). -/
structure BankRegs where
  /-- `ram_enabled` (R22). -/
  ramEnabled : Bool
  /-- `rom_bank_number` (R23). -/
  romBankNumber : BitVec 5
  /-- `secondary_register` (R24): one field, read by mode. -/
  secondaryRegister : BitVec 2
  /-- `banking_mode` (R25). -/
  bankingMode : BankingMode
  deriving DecidableEq, Repr

/-- `btn` (R34): true is pressed. -/
structure Buttons where
  up : Bool
  down : Bool
  left : Bool
  right : Bool
  a : Bool
  b : Bool
  start : Bool
  select : Bool
  deriving DecidableEq, Repr

/-- The stores of the Cartridge (R77, R122). -/
inductive CartStore where
  | rom | cram
  deriving DecidableEq, Repr

/-- The byte arrays reached through the bounds-checked segment primitive (R86): the Memory Segments (R28–R30) and the
register arrays (R31, R37). -/
inductive Segment where
  | vram | wram | oam | hram | ppureg
  deriving DecidableEq, Repr

/-- The writable byte arrays: the Persistent RAM and the segments. -/
inductive Ram where
  | cram
  | seg (g : Segment)
  deriving DecidableEq, Repr

/-- The two contract violations the block records (R38, R121). -/
inductive BusFault where
  /-- Code 1 (R122): a cartridge access formed an offset at or past its store's length. -/
  | addressDecodeFailure (address : Addr) (offset : Nat) (store : CartStore)
  /-- Code 2 (R123): a segment or view access at or past the segment's length. -/
  | segmentBoundsViolation (segment : Segment) (offset : Nat)
  deriving DecidableEq, Repr

/-- The state of the block, plain data. `cfg` is configuration, changed by no step (R19; log entry 1); `response`,
`schedule` and `draws` are the model's own (log entries 3 and 5). -/
structure State where
  /-- `CFG` (R6, R19). -/
  cfg : Cfg
  /-- The Bank Register Set (R22–R25). -/
  bank : BankRegs
  /-- `CRAM` (R27); an unlisted offset reads as `CRAM_INIT`. -/
  cram : Mem
  /-- `VRAM` (R28). -/
  vram : Mem
  /-- `WRAM` (R29). -/
  wram : Mem
  /-- `OAM` (R30). -/
  oam : Mem
  /-- `HRAM` (R31). -/
  hram : Mem
  /-- `PPUREG` (R37). -/
  ppureg : Mem
  /-- `boot_overlay_active` (R32). -/
  bootOverlayActive : Bool
  /-- `joyp_sel` (R33): bit 0 directions, bit 1 actions, selected when 0. -/
  joypSel : BitVec 2
  /-- `btn` (R34). -/
  btn : Buttons
  /-- `IF` (R35). -/
  ifReg : BitVec 5
  /-- `IE` (R36). -/
  ieReg : BitVec 5
  /-- `fault` (R38), sticky. -/
  fault : Option BusFault
  /-- The read data the last step delivered; none after a write, a setter, a raise, an idle step (R59, R61, R124(c)). -/
  response : Option Byte
  /-- The transactions the external driver has decided and the block has not taken, in order (R132). -/
  schedule : List Transaction
  /-- How often the free value `Config.driver` has been drawn. -/
  draws : Nat
  deriving DecidableEq, Repr

/-- Why a step stops the machine. -/
inductive Fault where
  /-- Raised by every step and every transaction of a state whose `fault` is set: "no transaction of any agent has a
  step" (R124(d)). Safe: the model stops where the spec says the session halts. -/
  | halted (cause : BusFault)
  deriving DecidableEq, Repr

/-- Why a request has no meaning. -/
inductive Refusal where
  /-- An instruction not modelled yet. No arm of `exec` answers with it. Safe. -/
  | notModelled (mnemonic : String)
  /-- Raised by `sessionStart`, on a configuration that breaks a constraint of R7 to R10: "a model has no session
  for it" (R6, R126), and by `sessionStartFromSave`, on a read-out of another length than `RAM_SIZE` (log entry 27).
  Safe. -/
  | malformedConfig
  deriving DecidableEq, Repr

/-- The state a session start leaves (R136), every field at its reset value. The arrays list nothing: unlisted offsets
read as their reset contents. -/
def State.ofCfg (c : Cfg) : State where
  cfg := c
  bank := { ramEnabled := false, romBankNumber := 1, secondaryRegister := 0, bankingMode := .simple }
  cram := []
  vram := []
  wram := []
  oam := []
  hram := []
  ppureg := []
  bootOverlayActive := c.bootPresent
  joypSel := 0b11
  btn := { up := false, down := false, left := false, right := false, a := false, b := false, start := false, select := false }
  ifReg := 0
  ieReg := 0
  fault := none
  response := none
  schedule := []
  draws := 0

/-- The machine right after reset: the session start of `Config.defaultCfg` (log entry 2). -/
def State.reset : State := State.ofCfg Config.defaultCfg

end Sys2Proof.Machine
end

