-- ==== Sys2Proof/Machine/Operands.lean ====
section
/-! DEFINITION. Every operand form: the address-derived offsets of 30_encoding.md R62 and the bits of `D` each write
uses, R63. An offset is a 16-bit subtraction read as a natural number, so an address below its base gives an offset past
every segment, which the segment primitive catches (log entry 25). -/

namespace Sys2Proof.Machine

/-! ### Offsets (R62) -/

/-- `A − 0x8000`, for VRAM (R62(a)). -/
def vramOffset (a : Addr) : Nat := (a - 0x8000).toNat

/-- `A − 0xC000`, for WRAM (R62(b)). -/
def wramOffset (a : Addr) : Nat := (a - 0xC000).toNat

/-- `A − 0xE000`, for the echo range (R62(c)). -/
def echoOffset (a : Addr) : Nat := (a - 0xE000).toNat

/-- `A − 0xFE00`, for OAM (R62(d)). -/
def oamOffset (a : Addr) : Nat := (a - 0xFE00).toNat

/-- `A − 0xFF40`, for PPUREG (R62(e)). -/
def ppuregOffset (a : Addr) : Nat := (a - 0xFF40).toNat

/-- `A − 0xFF80`, for HRAM (R62(f)). -/
def hramOffset (a : Addr) : Nat := (a - 0xFF80).toNat

/-- `A − 0xA000`, for CRAM (R62(g)). -/
def cramWindowOffset (a : Addr) : Nat := (a - 0xA000).toNat

/-- `A & 0x3FFF`, within a ROM bank (R62(h)). -/
def romBankOffset (a : Addr) : Nat := (a &&& 0x3FFF).toNat

/-- `A[7:0]`, into the boot image (R62(i)). -/
def bootOffset (a : Addr) : Nat := (a.extractLsb' 0 8).toNat

/-! ### Bits of `D` (R63) -/

/-- `(D & 0x0F) == 0x0A` (R78). -/
def ramEnableField (d : Byte) : Bool := (d &&& 0x0F) == 0x0A

/-- `D & 0x1F`, with 0 replaced by 1 (R79). -/
def romBankField (d : Byte) : Nat :=
  let v := (d &&& 0x1F).toNat
  if v = 0 then 1 else v

/-- `D & 0x03` (R80). -/
def secondaryField (d : Byte) : BitVec 2 := d.extractLsb' 0 2

/-- `(D & 0x1) == 0 ? Simple : Advanced` (R81). -/
def modeField (d : Byte) : BankingMode := if d &&& 0x1 = 0 then .simple else .advanced

/-- `D[5:4]` (R101). -/
def joypSelField (d : Byte) : BitVec 2 := d.extractLsb' 4 2

/-- `D[4:0]` (R103, R105). -/
def interruptField (d : Byte) : BitVec 5 := d.extractLsb' 0 5

/-- `D == 0x01` (R109). -/
def bootOffField (d : Byte) : Bool := d == 0x01

end Sys2Proof.Machine
end

