-- ==== Sys2Proof/Machine/Bank.lean ====
section
/-! DEFINITION. The configuration's derived quantities and constraints (00_scope.md R6–R10, R16) and the Memory Bank
Controller: its translations (40_cartridge_mbc.md R72, R73) and its write contract's bounds. They read the configuration
and the Bank Register Set, nothing else (R70). -/

namespace Sys2Proof.Machine

/-! ### Configuration -/

/-- `BC` (R7): the ROM bank count. -/
def romBankCount (c : Cfg) : Nat := c.romSize / 0x4000

/-- `RW` (R8): the RAM window. -/
def ramWindow (c : Cfg) : Nat := min c.ramSize 0x2000

/-- `RB` (R8): the RAM bank count. -/
def ramBankCount (c : Cfg) : Nat := max 1 (c.ramSize / 0x2000)

/-- What an unwritten byte of `CRAM` is (R27): `CRAM_INIT`'s, or an unconstrained draw when the host supplies none. -/
def cramFill (c : Cfg) : Nat → Byte :=
  match c.cramInit with
  | some m => memRead zeroFill m
  | none => Config.cramDraw

/-- The RAM sizes of R8. -/
def ramSizeOk (n : Nat) : Bool := n == 0 || n == 0x800 || (decide (0 < n) && n % 0x2000 == 0)

/-- A host-supplied `CRAM_INIT` has exactly `RAM_SIZE` bytes (R6): none listed past it. -/
def cramInitOk (c : Cfg) : Bool :=
  match c.cramInit with
  | some m => memWf zeroFill c.ramSize m
  | none => true

/-- The constraints of R7 to R10. Those on the boot image count only when one is present: otherwise "`BOOT` is ignored
and `BOOT_LEN` plays no part" (R9; log entry 12). -/
def cfgWf (c : Cfg) : Bool :=
  decide (0 < c.romSize) && c.romSize % 0x4000 == 0 && memWf zeroFill c.romSize c.rom && ramSizeOk c.ramSize &&
    cramInitOk c && (!c.bootPresent || (decide (c.bootLen ≤ 256) && memWf zeroFill c.bootLen c.boot))

/-- `ROM[off]` for an offset inside the image. -/
def romByte (c : Cfg) (off : Nat) : Byte := memRead zeroFill c.rom off

/-- `BOOT[off]` for an offset inside the image. -/
def bootByte (c : Cfg) (off : Nat) : Byte := memRead zeroFill c.boot off

/-! ### Bounding (R16) -/

/-- `bound(b, n)`. -/
def bound (p : BankBound) (b n : Nat) : Nat :=
  match p with
  | .modulo => b % n
  | .clamp => min b (n - 1)

/-! ### Translations -/

/-- `MBC == Type1`. -/
def isType1 (c : Cfg) : Bool := c.mbc == .type1

/-- `MBC == Type1 and banking_mode == Advanced`. -/
def isAdvanced (c : Cfg) (r : BankRegs) : Bool := isType1 c && r.bankingMode == .advanced

/-- The bank R72 forms for an address of 0x0000–0x7FFF, before `bound`. -/
def romBank (c : Cfg) (r : BankRegs) (a : Addr) : Nat :=
  if a.toNat < 0x4000 then
    if isAdvanced c r then r.secondaryRegister.toNat else 0
  else if isType1 c then (r.secondaryRegister.toNat <<< 5) ||| r.romBankNumber.toNat
  else 1

/-- `rom_offset(A)` (R72). -/
def romOffset (c : Cfg) (r : BankRegs) (a : Addr) : Nat :=
  bound c.bankBound (romBank c r a) (romBankCount c) * 0x4000 + romBankOffset a

/-- The RAM bank R73 forms, before `bound`. -/
def ramBank (c : Cfg) (r : BankRegs) : Nat := if isAdvanced c r then r.secondaryRegister.toNat else 0

/-- `ram_offset(A)` (R73). -/
def ramOffset (c : Cfg) (r : BankRegs) (a : Addr) : Nat :=
  bound c.bankBound (ramBank c r) (ramBankCount c) * 0x2000 + cramWindowOffset a % ramWindow c

/-- Whether a cartridge RAM access reaches storage (R84, R85): there is RAM, and `Type1` has it enabled. -/
def ramReachable (c : Cfg) (r : BankRegs) : Bool := decide (c.ramSize ≠ 0) && (!isType1 c || r.ramEnabled)

/-! ### The write contract (`apply_write`, R70, R71, R78–R81) -/

/-- R78: `ram_enabled`. -/
def applyRamEnable (c : Cfg) (d : Byte) (r : BankRegs) : BankRegs :=
  if isType1 c then { r with ramEnabled := ramEnableField d } else r

/-- R79: `rom_bank_number`, 0 replaced by 1 and then bounded. -/
def applyRomBank (c : Cfg) (d : Byte) (r : BankRegs) : BankRegs :=
  if isType1 c then
    { r with romBankNumber := BitVec.ofNat 5 (bound c.bankBound (romBankField d) (romBankCount c)) }
  else r

/-- R80: `secondary_register`, for a ROM of 1 MiB or more. -/
def applySecondary (c : Cfg) (d : Byte) (r : BankRegs) : BankRegs :=
  if isType1 c && decide (0x100000 ≤ c.romSize) then { r with secondaryRegister := secondaryField d } else r

/-- R81: `banking_mode`. -/
def applyMode (c : Cfg) (d : Byte) (r : BankRegs) : BankRegs :=
  if isType1 c then { r with bankingMode := modeField d } else r

end Sys2Proof.Machine
end

