-- ==== Sys2Proof/Machine/Flags.lean ====
section
/-! DEFINITION. How the flag registers are read: interrupt flag and enable (42_io_registers.md R102, R104), the joypad
(R99), and the button array's accessors. -/

namespace Sys2Proof.Machine

/-- `0xE0 | zext_8(v)`: five significant bits, the unused ones read as 1 (R102, R104). -/
def interruptReadValue (v : BitVec 5) : Byte := 0xE0 ||| v.setWidth 8

/-- `btn[B]` (R34). -/
def getButton (btn : Buttons) : Button → Bool
  | .up => btn.up
  | .down => btn.down
  | .left => btn.left
  | .right => btn.right
  | .a => btn.a
  | .b => btn.b
  | .start => btn.start
  | .select => btn.select

/-- `btn[B] <- p` (R116). -/
def putButton (btn : Buttons) (button : Button) (p : Bool) : Buttons :=
  match button with
  | .up => { btn with up := p }
  | .down => { btn with down := p }
  | .left => { btn with left := p }
  | .right => { btn with right := p }
  | .a => { btn with a := p }
  | .b => { btn with b := p }
  | .start => { btn with start := p }
  | .select => { btn with select := p }

/-- Four bits written `{b3, b2, b1, b0}` (R12). -/
def nibble (b3 b2 b1 b0 : Bool) : BitVec 4 :=
  BitVec.ofBool b3 ++ BitVec.ofBool b2 ++ BitVec.ofBool b1 ++ BitVec.ofBool b0

/-- `dir` (R99): right in bit 0, left in bit 1, up in bit 2, down in bit 3. -/
def directionMask (btn : Buttons) : BitVec 4 := nibble btn.down btn.up btn.left btn.right

/-- `act` (R99): a in bit 0, b in bit 1, select in bit 2, start in bit 3. -/
def actionMask (btn : Buttons) : BitVec 4 := nibble btn.start btn.select btn.b btn.a

/-- `m` (R99): the pressed masks of the selected groups; a group is selected when its bit of `joyp_sel` is 0 (R33). -/
def pressedMask (sel : BitVec 2) (btn : Buttons) : BitVec 4 :=
  (if sel.getLsbD 0 then 0 else directionMask btn) ||| (if sel.getLsbD 1 then 0 else actionMask btn)

/-- `joyp_value`: `0xF0 | (~m & 0x0F)` (R99). -/
def joypValue (sel : BitVec 2) (btn : Buttons) : Byte := 0xF0 ||| (~~~(pressedMask sel btn)).setWidth 8

end Sys2Proof.Machine
end

