-- ==== Sys2Proof/Machine/Ops.lean ====
section
/-! DEFINITION. The named operations every meaning is written over: reading and writing a byte array, ending a
transaction, `raise` (60_exceptions.md R124, the block's one exception; it has no return, R128), the segment primitive
(41_segments.md R86), the guarded cartridge accesses (40_cartridge_mbc.md R77). -/

namespace Sys2Proof.Machine

/-! ### Byte arrays -/

/-- What an unlisted offset of an array reads as: the reset contents (R27–R31, R37). -/
def fillOf (c : Cfg) : Ram → Nat → Byte
  | .cram => cramFill c
  | .seg _ => zeroFill

/-- The length of a segment (R11(c)–(g), R28–R31, R37). -/
def segmentLength : Segment → Nat
  | .vram => 0x2000
  | .wram => 0x2000
  | .oam => 160
  | .hram => 127
  | .ppureg => 12

/-- The length of a byte array. -/
def ramLength (c : Cfg) : Ram → Nat
  | .cram => c.ramSize
  | .seg g => segmentLength g

/-- The listed bytes of an array. -/
def cellsOf (s : State) : Ram → Mem
  | .cram => s.cram
  | .seg .vram => s.vram
  | .seg .wram => s.wram
  | .seg .oam => s.oam
  | .seg .hram => s.hram
  | .seg .ppureg => s.ppureg

/-- The state with an array's listed bytes replaced. -/
def withCells (s : State) (r : Ram) (m : Mem) : State :=
  match r with
  | .cram => { s with cram := m }
  | .seg .vram => { s with vram := m }
  | .seg .wram => { s with wram := m }
  | .seg .oam => { s with oam := m }
  | .seg .hram => { s with hram := m }
  | .seg .ppureg => { s with ppureg := m }

/-- Byte `off` of array `r`: THE read of one byte of storage. -/
def byteAt (s : State) (r : Ram) (off : Nat) : Byte := memRead (fillOf s.cfg r) (cellsOf s r) off

/-- `r[off] <- v`. -/
def setByte (s : State) (r : Ram) (off : Nat) (v : Byte) : State :=
  withCells s r (memWrite (fillOf s.cfg r) (cellsOf s r) off v)

/-! ### Ending a transaction -/

/-- A transaction that ends in state `t`; in a halted session no transaction has a step (R124(d)). -/
def transact (s t : State) : Host.Outcome State Fault Refusal :=
  match s.fault with
  | some f => .fault (.halted f)
  | none => .next t

/-- `return v`: a read delivers `v` and changes no state (R14(e), R49). -/
def deliver (v : Byte) (s : State) : State := { s with response := some v }

/-- A write, or a setter call, completes: it has no response data (R59, R60). -/
def complete (s : State) : State := { s with response := none }

/-- `raise F(info)` (R124): record the fault, write no other state, deliver no read data. -/
def raiseFault (f : BusFault) (s : State) : State := { s with fault := some f, response := none }

/-- The code of a fault in 60_exceptions.md's table of causes (the spec's own decision D21). -/
def faultCode : BusFault → Nat
  | .addressDecodeFailure _ _ _ => 1
  | .segmentBoundsViolation _ _ => 2

/-! ### The segment primitive (R86) -/

/-- Bounds-checked `read(offset)`. -/
def readSegment (g : Segment) (off : Nat) (s : State) : State :=
  if off < segmentLength g then deliver (byteAt s (.seg g) off) s
  else raiseFault (.segmentBoundsViolation g off) s

/-- Bounds-checked `write(offset, value)`. -/
def writeSegment (g : Segment) (off : Nat) (v : Byte) (s : State) : State :=
  if off < segmentLength g then complete (setByte s (.seg g) off v)
  else raiseFault (.segmentBoundsViolation g off) s

/-! ### Guarded cartridge accesses (R77) -/

/-- Read ROM through the translation (R82, R83). -/
def readRom (a : Addr) (s : State) : State :=
  let off := romOffset s.cfg s.bank a
  if off < s.cfg.romSize then deliver (romByte s.cfg off) s
  else raiseFault (.addressDecodeFailure a off .rom) s

/-- Read the Persistent RAM through the translation; the sentinel while it is absent or disabled (R84). -/
def readCram (a : Addr) (s : State) : State :=
  if ramReachable s.cfg s.bank then
    let off := ramOffset s.cfg s.bank a
    if off < s.cfg.ramSize then deliver (byteAt s .cram off) s
    else raiseFault (.addressDecodeFailure a off .cram) s
  else deliver sentinel s

/-- Write the Persistent RAM through the translation; discarded while it is absent or disabled (R85). -/
def writeCram (a : Addr) (d : Byte) (s : State) : State :=
  if ramReachable s.cfg s.bank then
    let off := ramOffset s.cfg s.bank a
    if off < s.cfg.ramSize then complete (setByte s .cram off d)
    else raiseFault (.addressDecodeFailure a off .cram) s
  else complete s

/-- Read the boot image; the sentinel past its end (R87). -/
def readBoot (a : Addr) (s : State) : State :=
  deliver (if a.toNat < s.cfg.bootLen then bootByte s.cfg (bootOffset a) else sentinel) s

end Sys2Proof.Machine
end

