-- ==== Sys2Proof/Machine/Cartridge.lean ====
section
/-! DEFINITION. The Cartridge's reads and writes (40_cartridge_mbc.md R82–R85). -/

namespace Sys2Proof.Machine

/-- `RD_ROM0` (R82); decode selects it at 0x0000–0x00FF only while the overlay is not active. -/
def execRdRom0 (a : Addr) (s : State) : Host.Outcome State Fault Refusal := transact s (readRom a s)

/-- `RD_ROMX` (R83). -/
def execRdRomX (a : Addr) (s : State) : Host.Outcome State Fault Refusal := transact s (readRom a s)

/-- `RD_CRAM` (R84). -/
def execRdCram (a : Addr) (s : State) : Host.Outcome State Fault Refusal := transact s (readCram a s)

/-- `WR_CRAM` (R85). -/
def execWrCram (a : Addr) (d : Byte) (s : State) : Host.Outcome State Fault Refusal := transact s (writeCram a d s)

end Sys2Proof.Machine
end

