-- ==== Sys2Proof/Machine/Controller.lean ====
section
/-! DEFINITION. The controller write operations, 0x0000–0x7FFF (40_cartridge_mbc.md R78–R81). -/

namespace Sys2Proof.Machine

/-- `WR_RAMEN` (R78): every address of the range acts the same. -/
def execWrRamen (_a : Addr) (d : Byte) (s : State) : Host.Outcome State Fault Refusal :=
  transact s (complete { s with bank := applyRamEnable s.cfg d s.bank })

/-- `WR_ROMBANK` (R79). -/
def execWrRombank (_a : Addr) (d : Byte) (s : State) : Host.Outcome State Fault Refusal :=
  transact s (complete { s with bank := applyRomBank s.cfg d s.bank })

/-- `WR_SECONDARY` (R80). -/
def execWrSecondary (_a : Addr) (d : Byte) (s : State) : Host.Outcome State Fault Refusal :=
  transact s (complete { s with bank := applySecondary s.cfg d s.bank })

/-- `WR_MODE` (R81). -/
def execWrMode (_a : Addr) (d : Byte) (s : State) : Host.Outcome State Fault Refusal :=
  transact s (complete { s with bank := applyMode s.cfg d s.bank })

end Sys2Proof.Machine
end

