-- ==== Sys2Proof/Machine/HostPorts.lean ====
section
/-! DEFINITION. The operations that are no bus transactions: the input setter and the picture unit's view
(43_host_ports.md R116–R118). -/

namespace Sys2Proof.Machine

/-- `SET_BUTTON` (R116): `btn[B] <- (P == 1)`, nothing else. -/
def execSetButton (button : Button) (p : Bool) (s : State) : Host.Outcome State Fault Refusal :=
  transact s (complete { s with btn := putButton s.btn button p })

/-- `VIEW_VRAM` (R117). -/
def execViewVram (o : BitVec 13) (s : State) : Host.Outcome State Fault Refusal :=
  transact s (readSegment .vram o.toNat s)

/-- `VIEW_OAM` (R118): `O ≥ 160` raises SegmentBoundsViolation. -/
def execViewOam (o : BitVec 13) (s : State) : Host.Outcome State Fault Refusal :=
  transact s (readSegment .oam o.toNat s)

end Sys2Proof.Machine
end

