-- ==== Sys2Proof/Machine/Io.lean ====
section
/-! DEFINITION. The IO Register Block, 0xFF00–0xFFFF (42_io_registers.md R98–R113). -/

namespace Sys2Proof.Machine

/-- `RD_JOYP` (R100): the value of R99. -/
def execRdJoyp (s : State) : Host.Outcome State Fault Refusal := transact s (deliver (joypValue s.joypSel s.btn) s)

/-- `WR_JOYP` (R101): `joyp_sel <- D[5:4]`. -/
def execWrJoyp (d : Byte) (s : State) : Host.Outcome State Fault Refusal :=
  transact s (complete { s with joypSel := joypSelField d })

/-- `RD_IF` (R102). -/
def execRdIf (s : State) : Host.Outcome State Fault Refusal := transact s (deliver (interruptReadValue s.ifReg) s)

/-- `WR_IF` (R103): `IF <- D[4:0]`. -/
def execWrIf (d : Byte) (s : State) : Host.Outcome State Fault Refusal :=
  transact s (complete { s with ifReg := interruptField d })

/-- `RD_IE` (R104). -/
def execRdIe (s : State) : Host.Outcome State Fault Refusal := transact s (deliver (interruptReadValue s.ieReg) s)

/-- `WR_IE` (R105): `IE <- D[4:0]`. -/
def execWrIe (d : Byte) (s : State) : Host.Outcome State Fault Refusal :=
  transact s (complete { s with ieReg := interruptField d })

/-- `RD_PPUREG` (R106). -/
def execRdPpureg (a : Addr) (s : State) : Host.Outcome State Fault Refusal :=
  transact s (readSegment .ppureg (ppuregOffset a) s)

/-- `WR_PPUREG` (R107): stored verbatim, no side effect. -/
def execWrPpureg (a : Addr) (d : Byte) (s : State) : Host.Outcome State Fault Refusal :=
  transact s (writeSegment .ppureg (ppuregOffset a) d s)

/-- `RD_BOOTFLAG` (R108): write-only, every bit reads as 1. -/
def execRdBootflag (s : State) : Host.Outcome State Fault Refusal := transact s (deliver sentinel s)

/-- `WR_BOOTFLAG` (R109): 0x01 clears the overlay flag, any other value is discarded. -/
def execWrBootflag (d : Byte) (s : State) : Host.Outcome State Fault Refusal :=
  transact s (complete { s with bootOverlayActive := s.bootOverlayActive && !bootOffField d })

/-- `RD_HRAM` (R110). -/
def execRdHram (a : Addr) (s : State) : Host.Outcome State Fault Refusal :=
  transact s (readSegment .hram (hramOffset a) s)

/-- `WR_HRAM` (R111). -/
def execWrHram (a : Addr) (d : Byte) (s : State) : Host.Outcome State Fault Refusal :=
  transact s (writeSegment .hram (hramOffset a) d s)

/-- `RD_IO_UNMAPPED` (R112). -/
def execRdIoUnmapped (_a : Addr) (s : State) : Host.Outcome State Fault Refusal := transact s (deliver sentinel s)

/-- `WR_IO_UNMAPPED` (R113): discarded. -/
def execWrIoUnmapped (_a : Addr) (_d : Byte) (s : State) : Host.Outcome State Fault Refusal := transact s (complete s)

end Sys2Proof.Machine
end

