-- ==== Sys2Proof/Machine/Segments.lean ====
section
/-! DEFINITION. The boot overlay and the Memory Segments through the bus (41_segments.md R87–R97). -/

namespace Sys2Proof.Machine

/-- `RD_BOOT` (R87); decode selects it only while the overlay is active. -/
def execRdBoot (a : Addr) (s : State) : Host.Outcome State Fault Refusal := transact s (readBoot a s)

/-- `RD_VRAM` (R88). -/
def execRdVram (a : Addr) (s : State) : Host.Outcome State Fault Refusal :=
  transact s (readSegment .vram (vramOffset a) s)

/-- `WR_VRAM` (R89). -/
def execWrVram (a : Addr) (d : Byte) (s : State) : Host.Outcome State Fault Refusal :=
  transact s (writeSegment .vram (vramOffset a) d s)

/-- `RD_WRAM` (R90). -/
def execRdWram (a : Addr) (s : State) : Host.Outcome State Fault Refusal :=
  transact s (readSegment .wram (wramOffset a) s)

/-- `WR_WRAM` (R91). -/
def execWrWram (a : Addr) (d : Byte) (s : State) : Host.Outcome State Fault Refusal :=
  transact s (writeSegment .wram (wramOffset a) d s)

/-- `RD_ECHO` (R92): the mirrored `WRAM` byte. -/
def execRdEcho (a : Addr) (s : State) : Host.Outcome State Fault Refusal :=
  transact s (readSegment .wram (echoOffset a) s)

/-- `WR_ECHO` (R93). -/
def execWrEcho (a : Addr) (d : Byte) (s : State) : Host.Outcome State Fault Refusal :=
  transact s (writeSegment .wram (echoOffset a) d s)

/-- `RD_OAM` (R94). -/
def execRdOam (a : Addr) (s : State) : Host.Outcome State Fault Refusal :=
  transact s (readSegment .oam (oamOffset a) s)

/-- `WR_OAM` (R95). -/
def execWrOam (a : Addr) (d : Byte) (s : State) : Host.Outcome State Fault Refusal :=
  transact s (writeSegment .oam (oamOffset a) d s)

/-- `RD_UNUSABLE` (R96). -/
def execRdUnusable (_a : Addr) (s : State) : Host.Outcome State Fault Refusal := transact s (deliver sentinel s)

/-- `WR_UNUSABLE` (R97): discarded. -/
def execWrUnusable (_a : Addr) (_d : Byte) (s : State) : Host.Outcome State Fault Refusal := transact s (complete s)

end Sys2Proof.Machine
end

