-- ==== Sys2Proof/Machine/Dispatch.lean ====
section
/-! DEFINITION. The dispatch: one arm per operation of 30_encoding.md R64. -/

namespace Sys2Proof.Machine

def exec (i : Instr) (s : State) : Host.Outcome State Fault Refusal :=
  match i with
  | .rdBoot a => Sys2Proof.Machine.execRdBoot a s
  | .rdRom0 a => Sys2Proof.Machine.execRdRom0 a s
  | .rdRomX a => Sys2Proof.Machine.execRdRomX a s
  | .rdVram a => Sys2Proof.Machine.execRdVram a s
  | .rdCram a => Sys2Proof.Machine.execRdCram a s
  | .rdWram a => Sys2Proof.Machine.execRdWram a s
  | .rdEcho a => Sys2Proof.Machine.execRdEcho a s
  | .rdOam a => Sys2Proof.Machine.execRdOam a s
  | .rdUnusable a => Sys2Proof.Machine.execRdUnusable a s
  | .rdJoyp => Sys2Proof.Machine.execRdJoyp s
  | .rdIf => Sys2Proof.Machine.execRdIf s
  | .rdPpureg a => Sys2Proof.Machine.execRdPpureg a s
  | .rdBootflag => Sys2Proof.Machine.execRdBootflag s
  | .rdHram a => Sys2Proof.Machine.execRdHram a s
  | .rdIe => Sys2Proof.Machine.execRdIe s
  | .rdIoUnmapped a => Sys2Proof.Machine.execRdIoUnmapped a s
  | .wrRamen a d => Sys2Proof.Machine.execWrRamen a d s
  | .wrRombank a d => Sys2Proof.Machine.execWrRombank a d s
  | .wrSecondary a d => Sys2Proof.Machine.execWrSecondary a d s
  | .wrMode a d => Sys2Proof.Machine.execWrMode a d s
  | .wrVram a d => Sys2Proof.Machine.execWrVram a d s
  | .wrCram a d => Sys2Proof.Machine.execWrCram a d s
  | .wrWram a d => Sys2Proof.Machine.execWrWram a d s
  | .wrEcho a d => Sys2Proof.Machine.execWrEcho a d s
  | .wrOam a d => Sys2Proof.Machine.execWrOam a d s
  | .wrUnusable a d => Sys2Proof.Machine.execWrUnusable a d s
  | .wrJoyp d => Sys2Proof.Machine.execWrJoyp d s
  | .wrIf d => Sys2Proof.Machine.execWrIf d s
  | .wrPpureg a d => Sys2Proof.Machine.execWrPpureg a d s
  | .wrBootflag d => Sys2Proof.Machine.execWrBootflag d s
  | .wrHram a d => Sys2Proof.Machine.execWrHram a d s
  | .wrIe d => Sys2Proof.Machine.execWrIe d s
  | .wrIoUnmapped a d => Sys2Proof.Machine.execWrIoUnmapped a d s
  | .setButton button p => Sys2Proof.Machine.execSetButton button p s
  | .viewVram o => Sys2Proof.Machine.execViewVram o s
  | .viewOam o => Sys2Proof.Machine.execViewOam o s

end Sys2Proof.Machine
end

