-- ==== Sys2Proof/Machine/Fetch.lean ====
section
/-! DEFINITION. How the next transaction is taken and run: decoded by the overlay state of that moment (30_encoding.md
R65), executed atomically and whole (20_memory.md R48); a halted session has no step (60_exceptions.md R124(d)). -/

namespace Sys2Proof.Machine

/-- The next transaction and the state with it taken: the driver's next decided one, or what the free value presents
when none is decided (R132; log entry 3). -/
def takeTransaction (s : State) : Option Transaction × State :=
  match s.schedule with
  | t :: rest => (some t, { s with schedule := rest })
  | [] => (Config.driver s.draws, { s with draws := s.draws + 1 })

/-- A step in which no agent issues a transaction: nothing changes and no read data is delivered. -/
def idle (s : State) : State := { s with response := none }

/-- Run what was taken. -/
def runTaken (taken : Option Transaction) (s : State) : Host.Outcome State Fault Refusal :=
  match taken with
  | some t => exec (decode s.bootOverlayActive t) s
  | none => .next (idle s)

/-- One transaction of some agent (R132), or a step in which none issues one. -/
def runNext (s : State) : Host.Outcome State Fault Refusal :=
  match s.fault with
  | some f => .fault (.halted f)
  | none => runTaken (takeTransaction s).1 (takeTransaction s).2

/-- `s` with the word of `nbits` bits as the very next transaction; a number that is no word of its format leaves `s` as
it is. -/
def placeTableWord (s : State) (nbits w : Nat) : State :=
  match Transaction.ofTableWord nbits w with
  | .ok t => { s with schedule := t :: s.schedule }
  | .error _ => s

end Sys2Proof.Machine
end

