-- ==== Sys2Proof/Machine/Step.lean ====
section
/-! DEFINITION. One step of the block, and a word placed as the next transaction. -/

namespace Sys2Proof.Machine

/-- One transaction of some agent (60_exceptions.md R132), or a step in which none issues one. -/
def step (s : State) : Host.Outcome State Fault Refusal := runNext s

/-- `s` with a word of the opcode table as the very next transaction (log entry 4). -/
def State.withFetchWord (s : State) (nbits w : Nat) : State := placeTableWord s nbits w

end Sys2Proof.Machine
end

