-- ==== Sys2Proof/Machine/Session.lean ====
section
/-! DEFINITION. The host's actions on a session: session start (70_reset_and_hazards.md R136), the save-RAM read-out and
giving it back (43_host_ports.md R119). -/

namespace Sys2Proof.Machine

/-- Session start (R136): a malformed configuration has no session (R6, R126). -/
def sessionStart (c : Cfg) : Host.Outcome State Fault Refusal :=
  if cfgWf c then .next (State.ofCfg c) else .refused .malformedConfig

/-- The save-RAM read-out (R119): `CRAM` whole, `RAM_SIZE` raw bytes in offset order. It changes no state. DESIGN CHOICE
(log entry 28): it answers in a halted session too, where R119 ("between any two transactions") and R124(d) (no further
transaction) leave open whether the host may read. -/
def saveRam (s : State) : List Byte := (List.range s.cfg.ramSize).map (byteAt s .cram)

/-- A configuration whose `CRAM_INIT` is a previous session's read-out (R119), for a read-out of `RAM_SIZE` bytes. DESIGN
CHOICE (log entry 27) for any other length, which R6's table rules out: this function alone would pad a shorter one with
0x00 and give a well-formed configuration for a longer one whose tail is 0x00. `sessionStartFromSave` checks the
length. -/
def withSaveRam (c : Cfg) (save : List Byte) : Cfg := { c with cramInit := some (memOfBytes zeroFill 0 save) }

/-- A session start with a previous session's read-out given back (R119, R136). DESIGN CHOICE (log entry 27): a read-out
that is not `RAM_SIZE` bytes long (R6's table) has no session. -/
def sessionStartFromSave (c : Cfg) (save : List Byte) : Host.Outcome State Fault Refusal :=
  if save.length = c.ramSize then sessionStart (withSaveRam c save) else .refused .malformedConfig

end Sys2Proof.Machine
end

