-- ==== Sys2Proof/Safety.lean ====
section
/-! DEFINITION. What the statements speak of: a running session, the invariant of the states a session can reach, and
what a transaction leaves unchanged. -/

namespace Sys2Proof.Machine

/-- The Bank Register Set at session start (10_state.md R22–R25). -/
def resetBank : BankRegs := (State.ofCfg Config.defaultCfg).bank

/-- The values `rom_bank_number` can hold (R23): its reset value, or `bound(v, BC)` for a v of 1 to 31. -/
def RomBankLegal (c : Cfg) (n : BitVec 5) : Prop :=
  n = 1 ∨ ∃ v, 1 ≤ v ∧ v ≤ 31 ∧ n.toNat = bound c.bankBound v (romBankCount c)

/-- The states of a session: the configuration is well-formed (R6), every byte array is in canonical form, and what the
rules promise of the registers for a whole session holds. -/
structure SessionInv (s : State) : Prop where
  /-- R6–R10. -/
  config : cfgWf s.cfg = true
  /-- Offsets rising and inside the array, no entry equal to what it would read as. -/
  arrays : ∀ r, memWf (fillOf s.cfg r) (ramLength s.cfg r) (cellsOf s r) = true
  /-- R26: "When `MBC = None`, no transaction changes the Bank Register Set". -/
  noneKeepsReset : s.cfg.mbc = .none → s.bank = resetBank
  /-- R24, R80: below 1 MiB, `secondary_register` stays at 0. -/
  smallRomSecondary : s.cfg.romSize < 0x100000 → s.bank.secondaryRegister = 0
  /-- R23. -/
  romBankNumber : RomBankLegal s.cfg s.bank.romBankNumber
  /-- R32: the overlay is active only where a boot image is present. -/
  overlay : s.bootOverlayActive = true → s.cfg.bootPresent = true
  /-- R121: the only fault a session can record is `VIEW_OAM`'s. -/
  faultKind : ∀ f, s.fault = some f → ∃ o, 160 ≤ o ∧ o < 0x2000 ∧ f = .segmentBoundsViolation .oam o

/-- Every field but the byte arrays and the delivered data is as before. -/
structure SameRegs (s t : State) : Prop where
  cfg : t.cfg = s.cfg
  bank : t.bank = s.bank
  bootOverlayActive : t.bootOverlayActive = s.bootOverlayActive
  joypSel : t.joypSel = s.joypSel
  btn : t.btn = s.btn
  ifReg : t.ifReg = s.ifReg
  ieReg : t.ieReg = s.ieReg
  fault : t.fault = s.fault
  schedule : t.schedule = s.schedule
  draws : t.draws = s.draws

/-- Every byte of every array reads as before. -/
def SameBytes (s t : State) : Prop := ∀ r off, byteAt t r off = byteAt s r off

/-- A store of `v` at byte `off` of `r` and nothing else: that byte reads `v`, every other byte of every array reads as
before, every register is unchanged, and no data is delivered. -/
structure StoresByte (s t : State) (r : Ram) (off : Nat) (v : Byte) : Prop where
  stored : byteAt t r off = v
  others : ∀ r' off', (r', off') ≠ (r, off) → byteAt t r' off' = byteAt s r' off'
  regs : SameRegs s t
  noData : t.response = none

/-- The transaction ends in `t`, with `v` delivered and no state changed. -/
def Reads (i : Instr) (s : State) (v : Byte) : Prop := exec i s = .next { s with response := some v }

/-- The transaction ends with nothing changed and no data delivered. -/
def Discards (i : Instr) (s : State) : Prop := exec i s = .next { s with response := none }

/-- The transaction ends, and stores `v` at byte `off` of `r` and nothing else. -/
def Stores (i : Instr) (s : State) (r : Ram) (off : Nat) (v : Byte) : Prop :=
  ∃ t, exec i s = .next t ∧ StoresByte s t r off v

/-- The transaction ends with the Bank Register Set `b` and nothing else changed. -/
def SetsBank (i : Instr) (s : State) (b : BankRegs) : Prop := exec i s = .next { s with bank := b, response := none }

end Sys2Proof.Machine
end

