-- ==== Sys2Proof/Certificates/Slice0/Obligations.lean ====
section
/-! DEFINITION. The statements for the provers. An address range is a bound on `A.toNat`, both ends included
(00_scope.md R12); a session that has recorded no fault is the premise `s.fault = none` (60_exceptions.md R124: "every
claim takes `fault = none` as a premise"). "The spec's own decision D<n>" names a row of 92_eei_decisions.md. -/

open Sys2Proof Sys2Proof.Machine

namespace Sys2Proof.Tables

/-- The rows of 20_memory.md R42's table: first address, last address, region. -/
def decodeRows : List (Nat × Nat × Region) :=
  [(0x0000, 0x00FF, .bootOverlay), (0x0100, 0x1FFF, .rom0RamEnable), (0x2000, 0x3FFF, .rom0RomBank),
   (0x4000, 0x5FFF, .romXSecondary), (0x6000, 0x7FFF, .romXMode), (0x8000, 0x9FFF, .video),
   (0xA000, 0xBFFF, .cartridgeRam), (0xC000, 0xDFFF, .work), (0xE000, 0xFDFF, .echo),
   (0xFE00, 0xFE9F, .objectAttribute), (0xFEA0, 0xFEFF, .unusable), (0xFF00, 0xFF00, .joypad)] ++
  [(0xFF01, 0xFF0E, .ioUnmapped), (0xFF0F, 0xFF0F, .interruptFlag), (0xFF10, 0xFF3F, .ioUnmapped),
   (0xFF40, 0xFF4B, .pictureUnit), (0xFF4C, 0xFF4F, .ioUnmapped), (0xFF50, 0xFF50, .bootFlag),
   (0xFF51, 0xFF7F, .ioUnmapped), (0xFF80, 0xFFFE, .highRam), (0xFFFF, 0xFFFF, .interruptEnable)]

/-- The rows of R41's table: first address, last address, owner. -/
def ownerRows (overlay : Bool) : List (Nat × Nat × Owner) :=
  [(0x0000, 0x00FF, if overlay then .bootRom else .cartridge), (0x0100, 0x7FFF, .cartridge),
   (0x8000, 0x9FFF, .videoSegment), (0xA000, 0xBFFF, .cartridge), (0xC000, 0xDFFF, .workSegment),
   (0xE000, 0xFDFF, .echoMirror), (0xFE00, 0xFE9F, .objectAttributeSegment), (0xFEA0, 0xFEFF, .unusable),
   (0xFF00, 0xFFFF, .ioRegisterBlock)]

/-- Exactly one row of the table holds `a`, and it carries `x`. -/
def OneRowHolds {α : Type} (rows : List (Nat × Nat × α)) (a : Addr) (x : α) : Prop :=
  ∃ row ∈ rows, (row.1 ≤ a.toNat ∧ a.toNat ≤ row.2.1) ∧ row.2.2 = x ∧
    ∀ other ∈ rows, other.1 ≤ a.toNat ∧ a.toNat ≤ other.2.1 → other = row

end Sys2Proof.Tables

open Sys2Proof.Tables

/-! ### Decoding, encoding, stepping -/

/-- R65, R132: the next scheduled transaction is taken, decoded by the overlay state, and executed. Past the schedule's
end (the model's choice, log entry 3) the free value `Config.driver` says what is issued, whatever it is. -/
def Obligations.StepRunsDecodedTransaction : Prop :=
  ∀ s : State, s.fault = none →
    (∀ t rest, s.schedule = t :: rest →
      step s = exec (decode s.bootOverlayActive t) { s with schedule := rest }) ∧
    (s.schedule = [] →
      step s =
        match Config.driver s.draws with
        | some t => exec (decode s.bootOverlayActive t) { s with draws := s.draws + 1 }
        | none => .next { s with draws := s.draws + 1, response := none })

/-- Words written out in 95_test_vectors.md section 2.7 (E1–E14 and the prose after it) decode to what they stand for. -/
def Obligations.SpecWordsDecode : Prop :=
  decode true (.bus 0x100000A) = .wrRamen 0x0000 0x0A ∧ decode false (.bus 0x1200005) = .wrRombank 0x2000 0x05 ∧
  decode true (.bus 0x0400000) = .rdRomX 0x4000 ∧ decode true (.bus 0x1FF5001) = .wrBootflag 0x01 ∧
  decode true (.bus 0x0FFFF00) = .rdIe ∧ decode true (.bus 0x1FFFFFF) = .wrIe 0xFF ∧
  decode true (.bus 0x0000000) = .rdBoot 0x0000 ∧ decode false (.bus 0x0000000) = .rdRom0 0x0000 ∧
  decode false (.btn 0x1) = .setButton .up true ∧ decode false (.btn 0x7) = .setButton .right true ∧
  decode false (.btn 0xD) = .setButton .start true ∧ decode false (.btn 0xE) = .setButton .select false ∧
  decode false (.view 0x1FFF) = .viewVram 0x1FFF ∧ decode false (.view 0x209F) = .viewOam 0x9F ∧
  decode false (.view 0x20A0) = .viewOam 0xA0 ∧ decode true (.bus 0x1A00177) = .wrCram 0xA001 0x77 ∧
  decode true (.bus 0x0FF0F00) = .rdIf ∧ decode true (.bus 0x0FF0F5A) = .rdIf

/-- R59–R66 (formats: the spec's own decision D2): no bit of an encoding is dropped. RD_BOOT and RD_ROM0 at
0x0000–0x00FF are told apart by the overlay state, so the condition of their rows is a premise. -/
def Obligations.DecodeOfEncodeIsInstruction : Prop :=
  ∀ (overlay : Bool) (i : Instr), i.wf = true → i.selectable overlay = true → decode overlay (encode i) = i

/-- R66: every word is an operation, and encoding what a word decodes to gives the word back, a read's `D` written as 0. -/
def Obligations.EncodeOfDecodeIsWord : Prop :=
  ∀ (overlay : Bool) (t : Transaction),
    encode (decode overlay t) =
      match t with
      | .bus w => if busW w then .bus w else .bus (busWord false (busA w) 0)
      | .btn w => .btn w
      | .view w => .view w

/-- R42, R65: what a word decodes to has its address in its row's range, and its row's condition holds. -/
def Obligations.DecodedInstructionLiesInItsRow : Prop :=
  ∀ (overlay : Bool) (t : Transaction),
    (decode overlay t).wf = true ∧ (decode overlay t).selectable overlay = true

/-- R43: every address lies in exactly one row of R42's table, the row whose region selects its operation. (The rows of
the IO block are the spec's own decisions D17 and D18.) -/
def Obligations.DecodeTablePartitionsAddresses : Prop :=
  ∀ a : Addr, OneRowHolds decodeRows a (regionOf a)

/-- R41: exactly one row of the authoritative table holds an address and gives its owner; the overlay matters at
0x0000–0x00FF only. -/
def Obligations.OwnerTableHoldsEveryAddress : Prop :=
  (∀ (overlay : Bool) (a : Addr), OneRowHolds (ownerRows overlay) a (ownerOf overlay a)) ∧
  ∀ a : Addr, 0x0100 ≤ a.toNat → ownerOf true a = ownerOf false a

/-- R65: "This is the only decode that depends on state": the choice of RD_BOOT or RD_ROM0 for a read at or below
0x00FF. -/
def Obligations.DecodeDependsOnOverlayOnlyForLowReads : Prop :=
  (∀ t : Transaction, decode true t ≠ decode false t →
    ∃ w, t = .bus w ∧ busW w = false ∧ (busA w).toNat ≤ 0x00FF) ∧
  ∀ (a : Addr) (d : Byte), a.toNat ≤ 0x00FF →
    decode true (.bus (busWord false a d)) = .rdBoot a ∧ decode false (.bus (busWord false a d)) = .rdRom0 a

/-! ### Session start -/

/-- R6–R9, R126 (the spec's own decision D20): a session exists exactly for a configuration within the constraints;
every other one is refused by name. That a boot image's constraints count only when one is present is the model's
reading (log entry 12); that the byte sequences must stand in canonical form (rising offsets, no 0x00 listed), which
`memWf` asks beside their lengths, is the model's choice of how to write them down (log entry 8). -/
def Obligations.SessionExistsOnlyForWellFormedConfig : Prop :=
  ∀ c : Cfg,
    ((0 < c.romSize ∧ 16384 ∣ c.romSize ∧ memWf zeroFill c.romSize c.rom = true ∧
        (c.ramSize = 0 ∨ c.ramSize = 2048 ∨ ∃ k, 1 ≤ k ∧ c.ramSize = 8192 * k) ∧
        (∀ m, c.cramInit = some m → memWf zeroFill c.ramSize m = true) ∧
        (c.bootPresent = true → c.bootLen ≤ 256 ∧ memWf zeroFill c.bootLen c.boot = true)) ∧
      sessionStart c = .next (State.ofCfg c)) ∨
    (¬(0 < c.romSize ∧ 16384 ∣ c.romSize ∧ memWf zeroFill c.romSize c.rom = true ∧
        (c.ramSize = 0 ∨ c.ramSize = 2048 ∨ ∃ k, 1 ≤ k ∧ c.ramSize = 8192 * k) ∧
        (∀ m, c.cramInit = some m → memWf zeroFill c.ramSize m = true) ∧
        (c.bootPresent = true → c.bootLen ≤ 256 ∧ memWf zeroFill c.bootLen c.boot = true)) ∧
      sessionStart c = .refused .malformedConfig)

/-- R136: what a session start leaves in every field the spec gives the block. The segments' zeros are the source's; the
register values are the spec's own decisions D8, D9, D12–D17, D19, D21 (log entry 13). -/
def Obligations.SessionStartLeavesResetValues : Prop :=
  ∀ c : Cfg, cfgWf c = true → ∃ t, sessionStart c = .next t ∧ t.cfg = c ∧
    t.bank.ramEnabled = false ∧ t.bank.romBankNumber = 1 ∧ t.bank.secondaryRegister = 0 ∧
    t.bank.bankingMode = .simple ∧ (∀ g off, byteAt t (.seg g) off = 0) ∧
    (∀ m, c.cramInit = some m → ∀ off, byteAt t .cram off = memRead zeroFill m off) ∧
    (c.cramInit = none → ∀ off, byteAt t .cram off = Config.cramDraw off) ∧
    t.bootOverlayActive = c.bootPresent ∧ t.joypSel = 0b11 ∧ (∀ n, getButton t.btn n = false) ∧
    t.ifReg = 0 ∧ t.ieReg = 0 ∧ t.fault = none

/-- R137: what every read delivers right after session start (resting on the spec's own decisions, see above). -/
def Obligations.ReadsRightAfterSessionStart : Prop :=
  ∀ (c : Cfg) (a : Addr), cfgWf c = true →
    let s := State.ofCfg c
    let i := decode s.bootOverlayActive (readByte a)
    (a.toNat ≤ 0x00FF → c.bootPresent = true →
      Reads i s (if a.toNat < c.bootLen then bootByte c a.toNat else 0xFF)) ∧
    (a.toNat ≤ 0x00FF → c.bootPresent = false → Reads i s (romByte c a.toNat)) ∧
    (0x0100 ≤ a.toNat → a.toNat ≤ 0x3FFF → Reads i s (romByte c a.toNat)) ∧
    (0x4000 ≤ a.toNat → a.toNat ≤ 0x7FFF →
      Reads i s (romByte c (if c.romSize = 0x4000 then a.toNat - 0x4000 else a.toNat))) ∧
    (0xA000 ≤ a.toNat → a.toNat ≤ 0xBFFF → (c.mbc = .type1 ∨ c.ramSize = 0) → Reads i s 0xFF) ∧
    (0xA000 ≤ a.toNat → a.toNat ≤ 0xBFFF → c.mbc = .none → 0 < c.ramSize →
      Reads i s (byteAt s .cram ((a.toNat - 0xA000) % min c.ramSize 8192))) ∧
    ((0x8000 ≤ a.toNat ∧ a.toNat ≤ 0x9FFF) ∨ (0xC000 ≤ a.toNat ∧ a.toNat ≤ 0xFE9F) → Reads i s 0x00) ∧
    ((0xFF40 ≤ a.toNat ∧ a.toNat ≤ 0xFF4B) ∨ (0xFF80 ≤ a.toNat ∧ a.toNat ≤ 0xFFFE) → Reads i s 0x00) ∧
    ((0xFEA0 ≤ a.toNat ∧ a.toNat ≤ 0xFF0E) ∨ (0xFF10 ≤ a.toNat ∧ a.toNat ≤ 0xFF3F) ∨
      (0xFF4C ≤ a.toNat ∧ a.toNat ≤ 0xFF7F) → Reads i s 0xFF) ∧
    (a = 0xFF0F → Reads i s 0xE0) ∧ (a = 0xFFFF → Reads i s 0xE0)

/-- The model's choice (log entry 2): `State.reset` is the session start of `Config.defaultCfg`, a configuration that has
a session. -/
def Obligations.ResetStateIsASessionStart : Prop :=
  sessionStart Config.defaultCfg = .next State.reset ∧ State.reset.cfg.mbc = .type1 ∧
    State.reset.bootOverlayActive = true ∧ State.reset.fault = none

/-! ### The invariant -/

/-- The invariant holds at `State.reset`, the session start of the configuration the model chose (log entry 2, DESIGN
CHOICE); the spec fixes none. -/
def Obligations.ResetMeetsTheInvariant : Prop := SessionInv State.reset

/-- The invariant holds at every session start (R136). -/
def Obligations.EverySessionStartMeetsTheInvariant : Prop :=
  ∀ c t, sessionStart c = .next t → SessionInv t

/-- Every step keeps the invariant: the configuration well-formed (R6), every array canonical, the Bank Register Set at
its reset values under `None` (R26), `secondary_register` 0 below 1 MiB (R24), `rom_bank_number` a bounded value (R23),
the overlay only where a boot image is present (R32), no fault but the view's (R121). -/
def Obligations.StepKeepsTheInvariant : Prop := ∀ s t, SessionInv s → step s = .next t → SessionInv t

/-! ### Whole-machine rules -/

/-- R19: the configuration, the ROM and boot images in it, never changes. -/
def Obligations.ConfigurationNeverChanges : Prop := ∀ s t, step s = .next t → t.cfg = s.cfg

/-- R124(d) (the spec's own decision D21): in a state with a fault recorded, no transaction has a step. -/
def Obligations.HaltedSessionHasNoStep : Prop :=
  ∀ s f, s.fault = some f → step s = .fault (.halted f) ∧ ∀ i, exec i s = .fault (.halted f)

/-- R44: every bus word completes: a read delivers one byte, a write delivers none, and neither records a fault. -/
def Obligations.EveryBusTransactionCompletes : Prop :=
  ∀ s w rest, SessionInv s → s.fault = none → s.schedule = .bus w :: rest →
    ∃ t, step s = .next t ∧ t.fault = none ∧ t.schedule = rest ∧
      (busW w = false → ∃ v, t.response = some v) ∧ (busW w = true → t.response = none)

/-- R76: every offset the translations form is inside its store. -/
def Obligations.TranslatedOffsetsLieInsideTheirStores : Prop :=
  ∀ (c : Cfg) (r : BankRegs) (a : Addr), cfgWf c = true →
    (a.toNat ≤ 0x7FFF → romOffset c r a < c.romSize) ∧
    (0xA000 ≤ a.toNat → a.toNat ≤ 0xBFFF → 0 < c.ramSize → ramOffset c r a < c.ramSize)

/-- R75: 21 bits hold every ROM offset, 15 bits every RAM offset, under any configuration. -/
def Obligations.TranslatedOffsetsAreBounded : Prop :=
  ∀ (c : Cfg) (r : BankRegs) (a : Addr),
    (a.toNat ≤ 0x7FFF → romOffset c r a ≤ 0x1FFFFF) ∧
    (0xA000 ≤ a.toNat → a.toNat ≤ 0xBFFF → ramOffset c r a ≤ 0x7FFF)

/-- R16, R72 (the spec's own decision D4): below the bank count `bound` changes nothing, and it always lands below it,
under either policy. -/
def Obligations.BoundIsBoundsSafe : Prop :=
  ∀ (p : BankBound) (b n : Nat), 1 ≤ n →
    bound p b n < n ∧ (b < n → bound p b n = b) ∧
      bound p b n = (if p = .modulo then b % n else min b (n - 1))

/-- R49: no bus read changes any state; each delivers one byte. -/
def Obligations.BusReadsChangeNothing : Prop :=
  ∀ (s : State) (overlay : Bool) (a : Addr), cfgWf s.cfg = true → s.fault = none →
    ∃ v, Reads (decodeRead overlay a) s v

/-- R50: a read repeated with nothing in between delivers the same byte. For the picture-unit window it rests on the
spec's own decision D16. -/
def Obligations.RepeatedReadsAgree : Prop :=
  ∀ (s t u : State) (overlay : Bool) (a : Addr),
    exec (decodeRead overlay a) s = .next t → exec (decodeRead overlay a) t = .next u →
    u.response = t.response

/-- R53: a byte written to a segment, the high RAM, the picture-unit window or reachable cartridge RAM is what the very
next read of the same address delivers, in any overlay state. -/
def Obligations.WriteIsVisibleToTheVeryNextRead : Prop :=
  ∀ (s t : State) (overlay : Bool) (a : Addr) (d : Byte), cfgWf s.cfg = true →
    ((0x8000 ≤ a.toNat ∧ a.toNat ≤ 0x9FFF) ∨ (0xC000 ≤ a.toNat ∧ a.toNat ≤ 0xFE9F) ∨
      (0xFF40 ≤ a.toNat ∧ a.toNat ≤ 0xFF4B) ∨ (0xFF80 ≤ a.toNat ∧ a.toNat ≤ 0xFFFE) ∨
      (0xA000 ≤ a.toNat ∧ a.toNat ≤ 0xBFFF ∧ s.cfg.ramSize ≠ 0 ∧
        (s.cfg.mbc = .type1 → s.bank.ramEnabled = true))) →
    exec (decodeWrite a d) s = .next t → Reads (decodeRead overlay a) t d

/-- R22–R25, R32–R36, R129: which transaction alone can change each register, and that none changes the configuration or
the driver's schedule. That a button press leaves `IF` alone is the spec's own decision D13. -/
def Obligations.EachRegisterHasItsOneWriter : Prop :=
  ∀ (i : Instr) (s t : State), exec i s = .next t →
    (t.bank.ramEnabled ≠ s.bank.ramEnabled → s.cfg.mbc = .type1 ∧ ∃ a d, i = .wrRamen a d) ∧
    (t.bank.romBankNumber ≠ s.bank.romBankNumber → s.cfg.mbc = .type1 ∧ ∃ a d, i = .wrRombank a d) ∧
    (t.bank.secondaryRegister ≠ s.bank.secondaryRegister →
      s.cfg.mbc = .type1 ∧ 1048576 ≤ s.cfg.romSize ∧ ∃ a d, i = .wrSecondary a d) ∧
    (t.bank.bankingMode ≠ s.bank.bankingMode → s.cfg.mbc = .type1 ∧ ∃ a d, i = .wrMode a d) ∧
    (t.bootOverlayActive ≠ s.bootOverlayActive →
      i = .wrBootflag 0x01 ∧ s.bootOverlayActive = true ∧ t.bootOverlayActive = false) ∧
    (t.joypSel ≠ s.joypSel → ∃ d, i = .wrJoyp d) ∧ (t.btn ≠ s.btn → ∃ n p, i = .setButton n p) ∧
    (t.ifReg ≠ s.ifReg → ∃ d, i = .wrIf d) ∧ (t.ieReg ≠ s.ieReg → ∃ d, i = .wrIe d) ∧
    t.cfg = s.cfg ∧ t.schedule = s.schedule ∧ t.draws = s.draws

/-- R27–R31, R37: which transaction alone can change a byte of each array. For PPUREG it is the spec's own decision D16. -/
def Obligations.EachArrayHasItsWriters : Prop :=
  ∀ (i : Instr) (s t : State) (r : Ram) (off : Nat), exec i s = .next t → byteAt t r off ≠ byteAt s r off →
    match r with
    | .cram => (s.cfg.mbc = .type1 → s.bank.ramEnabled = true) ∧ ∃ a d, i = .wrCram a d
    | .seg .vram => ∃ a d, i = .wrVram a d
    | .seg .wram => (∃ a d, i = .wrWram a d) ∨ ∃ a d, i = .wrEcho a d
    | .seg .oam => ∃ a d, i = .wrOam a d
    | .seg .hram => ∃ a d, i = .wrHram a d
    | .seg .ppureg => ∃ a d, i = .wrPpureg a d

/-- R109, R131: the overlay never comes back, whatever steps. -/
def Obligations.OverlayNeverComesBack : Prop :=
  ∀ s t, step s = .next t → s.bootOverlayActive = false → t.bootOverlayActive = false

/-- R26, R71 (the spec's own decision D7): under `MBC = None` no step changes the Bank Register Set. -/
def Obligations.NoneVariantKeepsTheBankRegisters : Prop :=
  ∀ s t, s.cfg.mbc = .none → step s = .next t → t.bank = s.bank

/-- R74: for a ROM under 1 MiB the two modes give the same translation. -/
def Obligations.ModesAgreeBelowOneMiB : Prop :=
  ∀ (s : State) (m : BankingMode) (a : Addr), SessionInv s → s.cfg.romSize < 1048576 →
    romOffset s.cfg { s.bank with bankingMode := m } a = romOffset s.cfg s.bank a ∧
    ramOffset s.cfg { s.bank with bankingMode := m } a = ramOffset s.cfg s.bank a

/-- R70: the controller's operations read the Bank Register Set, the variant, the bound policy and the static sizes,
nothing else: not the boot overlay, not another register, not the stored bytes. Two sessions that agree on those (and on
the ROM image and cartridge bytes that the reads deliver) answer cartridge reads alike, and control writes leave them
with the same Bank Register Set. -/
def Obligations.CartridgeReadsOnlyControllerState : Prop :=
  ∀ (s₁ s₂ t₁ t₂ : State) (a : Addr) (d : Byte), s₁.bank = s₂.bank → s₁.cfg.mbc = s₂.cfg.mbc →
    s₁.cfg.romSize = s₂.cfg.romSize → s₁.cfg.ramSize = s₂.cfg.ramSize → s₁.cfg.bankBound = s₂.cfg.bankBound →
    romOffset s₁.cfg s₁.bank a = romOffset s₂.cfg s₂.bank a ∧
    ramOffset s₁.cfg s₁.bank a = ramOffset s₂.cfg s₂.bank a ∧
    (s₁.cfg.rom = s₂.cfg.rom → exec (.rdRom0 a) s₁ = .next t₁ → exec (.rdRom0 a) s₂ = .next t₂ →
      t₁.response = t₂.response) ∧
    (s₁.cfg.rom = s₂.cfg.rom → exec (.rdRomX a) s₁ = .next t₁ → exec (.rdRomX a) s₂ = .next t₂ →
      t₁.response = t₂.response) ∧
    ((∀ off, byteAt s₁ .cram off = byteAt s₂ .cram off) → exec (.rdCram a) s₁ = .next t₁ →
      exec (.rdCram a) s₂ = .next t₂ → t₁.response = t₂.response) ∧
    (exec (.wrRamen a d) s₁ = .next t₁ → exec (.wrRamen a d) s₂ = .next t₂ → t₁.bank = t₂.bank) ∧
    (exec (.wrRombank a d) s₁ = .next t₁ → exec (.wrRombank a d) s₂ = .next t₂ → t₁.bank = t₂.bank) ∧
    (exec (.wrSecondary a d) s₁ = .next t₁ → exec (.wrSecondary a d) s₂ = .next t₂ → t₁.bank = t₂.bank) ∧
    (exec (.wrMode a d) s₁ = .next t₁ → exec (.wrMode a d) s₂ = .next t₂ → t₁.bank = t₂.bank)

/-! ### The controller's writes -/

/-- R78; that `None` discards and that the overlay makes no difference are the spec's own decisions D7 and D10. -/
def Obligations.RamEnableWriteComparesLowNibble : Prop :=
  ∀ (s : State) (overlay : Bool) (a : Addr) (d : Byte), s.fault = none → a.toNat ≤ 0x1FFF →
    decode overlay (writeByte a d) = .wrRamen a d ∧
    SetsBank (.wrRamen a d) s
      (if s.cfg.mbc = .type1 then { s.bank with ramEnabled := decide (d.toNat % 16 = 0xA) } else s.bank)

/-- R79 (the spec's own decision D4 for the bound): bits 4:0, zero replaced by one, then bounded by the bank count. -/
def Obligations.RomBankWriteReplacesZeroThenBounds : Prop :=
  ∀ (s : State) (overlay : Bool) (a : Addr) (d : Byte), s.fault = none → 0x2000 ≤ a.toNat → a.toNat ≤ 0x3FFF →
    decode overlay (writeByte a d) = .wrRombank a d ∧
    ∃ t, exec (.wrRombank a d) s = .next t ∧ SetsBank (.wrRombank a d) s t.bank ∧
      (s.cfg.mbc = .none → t.bank = s.bank) ∧
      (s.cfg.mbc = .type1 →
        t.bank = { s.bank with romBankNumber := t.bank.romBankNumber } ∧
        t.bank.romBankNumber.toNat =
          bound s.cfg.bankBound (if d.toNat % 32 = 0 then 1 else d.toNat % 32) (s.cfg.romSize / 16384))

/-- R80: bits 1:0, and only for a ROM of 1 MiB or more; below that a RAM bank other than 0 is out of reach in either
mode, where the register stands at its reset value 0. -/
def Obligations.SecondaryWriteStoresForLargeRomsOnly : Prop :=
  ∀ (s : State) (overlay : Bool) (a : Addr) (d : Byte), s.fault = none → 0x4000 ≤ a.toNat → a.toNat ≤ 0x5FFF →
    decode overlay (writeByte a d) = .wrSecondary a d ∧
    SetsBank (.wrSecondary a d) s
      (if s.cfg.mbc = .type1 ∧ 0x100000 ≤ s.cfg.romSize then
        { s.bank with secondaryRegister := BitVec.ofNat 2 (d.toNat % 4) } else s.bank) ∧
    ∀ t, exec (.wrSecondary a d) s = .next t → s.cfg.romSize < 0x100000 → s.bank.secondaryRegister = 0 →
      ∀ m : BankingMode, ramBank t.cfg { t.bank with bankingMode := m } = 0

/-- R81: bit 0 alone; from the next transaction on it decides the bank that the low ROM window and the RAM window form
under `Type1`, and it never changes the translation of 0x4000–0x7FFF. -/
def Obligations.ModeWriteUsesBitZeroOnly : Prop :=
  ∀ (s : State) (overlay : Bool) (a : Addr) (d : Byte), s.fault = none → 0x6000 ≤ a.toNat → a.toNat ≤ 0x7FFF →
    decode overlay (writeByte a d) = .wrMode a d ∧
    SetsBank (.wrMode a d) s
      (if s.cfg.mbc = .type1 then
        { s.bank with bankingMode := if d.toNat % 2 = 0 then .simple else .advanced } else s.bank) ∧
    (∀ t x, exec (.wrMode a d) s = .next t → s.cfg.mbc = .type1 → x.toNat ≤ 0x3FFF →
      romBank t.cfg t.bank x = (if d.toNat % 2 = 0 then 0 else s.bank.secondaryRegister.toNat) ∧
      ramBank t.cfg t.bank = (if d.toNat % 2 = 0 then 0 else s.bank.secondaryRegister.toNat)) ∧
    ∀ (m : BankingMode) (x : Addr), 0x4000 ≤ x.toNat → x.toNat ≤ 0x7FFF →
      romOffset s.cfg { s.bank with bankingMode := m } x = romOffset s.cfg s.bank x

/-! ### The Cartridge -/

/-- R82, R72 (the spec's own decision D4 for the bound): the low window shows bank 0, or in Advanced mode the bank of
`secondary_register`. -/
def Obligations.LowRomWindowRead : Prop :=
  ∀ (s : State) (a : Addr), cfgWf s.cfg = true → s.fault = none → a.toNat ≤ 0x3FFF →
    decode false (readByte a) = .rdRom0 a ∧ (0x0100 ≤ a.toNat → decode true (readByte a) = .rdRom0 a) ∧
    Reads (.rdRom0 a) s (romByte s.cfg (bound s.cfg.bankBound
      (if s.cfg.mbc = .type1 ∧ s.bank.bankingMode = .advanced then s.bank.secondaryRegister.toNat else 0)
      (s.cfg.romSize / 16384) * 16384 + a.toNat))

/-- R83, R72 (the spec's own decisions D4 and D7): the high window shows `secondary × 32 + rom_bank_number`, whatever the
mode, and bank 1 under `None`. -/
def Obligations.HighRomWindowRead : Prop :=
  ∀ (s : State) (overlay : Bool) (a : Addr), cfgWf s.cfg = true → s.fault = none → 0x4000 ≤ a.toNat →
    a.toNat ≤ 0x7FFF →
    decode overlay (readByte a) = .rdRomX a ∧
    Reads (.rdRomX a) s (romByte s.cfg (bound s.cfg.bankBound
      (if s.cfg.mbc = .type1 then s.bank.secondaryRegister.toNat * 32 + s.bank.romBankNumber.toNat else 1)
      (s.cfg.romSize / 16384) * 16384 + (a.toNat - 0x4000)))

/-- R84, R73 (the spec's own decisions D4–D6): the sentinel while absent or disabled, else the translated byte. -/
def Obligations.CartridgeRamRead : Prop :=
  ∀ (s : State) (overlay : Bool) (a : Addr), cfgWf s.cfg = true → s.fault = none → 0xA000 ≤ a.toNat →
    a.toNat ≤ 0xBFFF →
    decode overlay (readByte a) = .rdCram a ∧
    Reads (.rdCram a) s
      (if s.cfg.ramSize = 0 ∨ (s.cfg.mbc = .type1 ∧ s.bank.ramEnabled = false) then 0xFF
       else byteAt s .cram (bound s.cfg.bankBound
        (if s.cfg.mbc = .type1 ∧ s.bank.bankingMode = .advanced then s.bank.secondaryRegister.toNat else 0)
        (max 1 (s.cfg.ramSize / 8192)) * 8192 + (a.toNat - 0xA000) % min s.cfg.ramSize 8192))

/-- R85, R73 (the spec's own decisions D4–D7): discarded while absent or disabled, else the translated byte is stored and
nothing else changes. -/
def Obligations.CartridgeRamWrite : Prop :=
  ∀ (s : State) (overlay : Bool) (a : Addr) (d : Byte), cfgWf s.cfg = true → s.fault = none → 0xA000 ≤ a.toNat →
    a.toNat ≤ 0xBFFF →
    decode overlay (writeByte a d) = .wrCram a d ∧
    (if s.cfg.ramSize = 0 ∨ (s.cfg.mbc = .type1 ∧ s.bank.ramEnabled = false) then Discards (.wrCram a d) s
     else Stores (.wrCram a d) s .cram (bound s.cfg.bankBound
        (if s.cfg.mbc = .type1 ∧ s.bank.bankingMode = .advanced then s.bank.secondaryRegister.toNat else 0)
        (max 1 (s.cfg.ramSize / 8192)) * 8192 + (a.toNat - 0xA000) % min s.cfg.ramSize 8192) d)

/-- R77, R122, R124 (the spec's own decision D21): a ROM access whose offset is not inside the image records the decode
failure in place of the access, writes nothing else and delivers no data. By R76 no well-formed configuration reaches it.
An offset into a Persistent RAM of any size at all, well-formed or not, is inside it, so there the guard never answers. -/
def Obligations.GuardRecordsTheDecodeFailure : Prop :=
  ∀ (s : State) (a : Addr), s.fault = none →
    (s.cfg.romSize ≤ romOffset s.cfg s.bank a →
      exec (.rdRom0 a) s = .next { s with
        fault := some (.addressDecodeFailure a (romOffset s.cfg s.bank a) .rom), response := none } ∧
      exec (.rdRomX a) s = .next { s with
        fault := some (.addressDecodeFailure a (romOffset s.cfg s.bank a) .rom), response := none }) ∧
    (s.cfg.ramSize ≠ 0 → ramOffset s.cfg s.bank a < s.cfg.ramSize)

/-! ### Boot overlay and segments -/

/-- R87: the boot image's byte; past its end the sentinel (the spec's own decision D9). A write there goes to the
controller (D10, stated with WR_RAMEN). -/
def Obligations.BootOverlayRead : Prop :=
  ∀ (s : State) (a : Addr), s.fault = none → a.toNat ≤ 0x00FF →
    decode true (readByte a) = .rdBoot a ∧
    Reads (.rdBoot a) s (if a.toNat < s.cfg.bootLen then bootByte s.cfg a.toNat else 0xFF)

/-- R88, R89: the video segment read and written at `A − 0x8000`; the next bus read and the next view read see the byte. -/
def Obligations.VideoSegmentReadAndWrite : Prop :=
  ∀ (s : State) (overlay : Bool) (a : Addr) (d : Byte), s.fault = none → 0x8000 ≤ a.toNat → a.toNat ≤ 0x9FFF →
    decode overlay (.bus (busWord false a d)) = .rdVram a ∧ decode overlay (.bus (busWord true a d)) = .wrVram a d ∧
    Reads (.rdVram a) s (byteAt s (.seg .vram) (a.toNat - 0x8000)) ∧
    Stores (.wrVram a d) s (.seg .vram) (a.toNat - 0x8000) d ∧
    ∀ t, exec (.wrVram a d) s = .next t →
      Reads (.rdVram a) t d ∧ Reads (.viewVram (BitVec.ofNat 13 (a.toNat - 0x8000))) t d

/-- R90, R91: the work segment read and written at `A − 0xC000`, zero at session start; a write up to 0xDDFF is visible at
`A + 0x2000` through the echo range. -/
def Obligations.WorkSegmentReadAndWrite : Prop :=
  ∀ (s : State) (overlay : Bool) (a : Addr) (d : Byte), s.fault = none → 0xC000 ≤ a.toNat → a.toNat ≤ 0xDFFF →
    decode overlay (.bus (busWord false a d)) = .rdWram a ∧ decode overlay (.bus (busWord true a d)) = .wrWram a d ∧
    Reads (.rdWram a) s (byteAt s (.seg .wram) (a.toNat - 0xC000)) ∧
    (∀ c, Reads (.rdWram a) (State.ofCfg c) 0x00) ∧
    Stores (.wrWram a d) s (.seg .wram) (a.toNat - 0xC000) d ∧
    (a.toNat ≤ 0xDDFF → ∀ t, exec (.wrWram a d) s = .next t → Reads (.rdEcho (a + 0x2000)) t d)

/-- R92, R93: the echo range has no storage of its own: it reads and writes the mirrored work byte, which is visible
through 0xC000–0xDDFF. -/
def Obligations.EchoMirrorsTheWorkSegment : Prop :=
  ∀ (s : State) (overlay : Bool) (a : Addr) (d : Byte), s.fault = none → 0xE000 ≤ a.toNat → a.toNat ≤ 0xFDFF →
    decode overlay (.bus (busWord false a d)) = .rdEcho a ∧ decode overlay (.bus (busWord true a d)) = .wrEcho a d ∧
    Reads (.rdEcho a) s (byteAt s (.seg .wram) (a.toNat - 0xE000)) ∧
    Stores (.wrEcho a d) s (.seg .wram) (a.toNat - 0xE000) d ∧
    exec (.rdEcho a) s = exec (.rdWram (a - 0x2000)) s ∧ exec (.wrEcho a d) s = exec (.wrWram (a - 0x2000) d) s ∧
    ∀ t, exec (.wrEcho a d) s = .next t → Reads (.rdWram (a - 0x2000)) t d

/-- R94, R95: the object-attribute segment read and written at `A − 0xFE00`; no other transaction writes it. -/
def Obligations.ObjectAttributeSegmentReadAndWrite : Prop :=
  ∀ (s : State) (overlay : Bool) (a : Addr) (d : Byte), s.fault = none → 0xFE00 ≤ a.toNat → a.toNat ≤ 0xFE9F →
    decode overlay (.bus (busWord false a d)) = .rdOam a ∧ decode overlay (.bus (busWord true a d)) = .wrOam a d ∧
    Reads (.rdOam a) s (byteAt s (.seg .oam) (a.toNat - 0xFE00)) ∧
    Stores (.wrOam a d) s (.seg .oam) (a.toNat - 0xFE00) d ∧
    (∀ t, exec (.wrOam a d) s = .next t → Reads (.rdOam a) t d) ∧
    ∀ i t off, exec i s = .next t → byteAt t (.seg .oam) off ≠ byteAt s (.seg .oam) off → ∃ a' d', i = .wrOam a' d'

/-- R96, R97: the unusable range reads 0xFF and discards writes. -/
def Obligations.UnusableRangeReadsSentinelAndDiscards : Prop :=
  ∀ (s : State) (overlay : Bool) (a : Addr) (d : Byte), s.fault = none → 0xFEA0 ≤ a.toNat → a.toNat ≤ 0xFEFF →
    decode overlay (.bus (busWord false a d)) = .rdUnusable a ∧
    decode overlay (.bus (busWord true a d)) = .wrUnusable a d ∧
    Reads (.rdUnusable a) s 0xFF ∧ Discards (.wrUnusable a d) s

/-! ### The IO Register Block -/

/-- R99, R100 (bit positions and polarity are the spec's own decision D12): bit by bit, a pressed button of a selected
group reads 0, every other bit 1. -/
def Obligations.JoypadReadComposesSelectedGroups : Prop :=
  ∀ (s : State) (overlay : Bool), s.fault = none →
    decode overlay (readByte 0xFF00) = .rdJoyp ∧
    ∃ v : Byte, Reads .rdJoyp s v ∧
      v.getLsbD 0 = !((!s.joypSel.getLsbD 0 && s.btn.right) || (!s.joypSel.getLsbD 1 && s.btn.a)) ∧
      v.getLsbD 1 = !((!s.joypSel.getLsbD 0 && s.btn.left) || (!s.joypSel.getLsbD 1 && s.btn.b)) ∧
      v.getLsbD 2 = !((!s.joypSel.getLsbD 0 && s.btn.up) || (!s.joypSel.getLsbD 1 && s.btn.select)) ∧
      v.getLsbD 3 = !((!s.joypSel.getLsbD 0 && s.btn.down) || (!s.joypSel.getLsbD 1 && s.btn.start)) ∧
      ∀ k, 4 ≤ k → k < 8 → v.getLsbD k = true

/-- R101 (the spec's own decision D12): bits 5:4 of `D` select the groups, nothing else changes. -/
def Obligations.JoypadWriteStoresTheSelectBits : Prop :=
  ∀ (s : State) (overlay : Bool) (d : Byte), s.fault = none →
    decode overlay (writeByte 0xFF00 d) = .wrJoyp d ∧
    exec (.wrJoyp d) s = .next { s with joypSel := BitVec.ofNat 2 (d.toNat / 16 % 4), response := none }

/-- R102: five significant bits, the unused ones read as 1. -/
def Obligations.InterruptFlagReadShowsUnusedBitsAsOne : Prop :=
  ∀ (s : State) (overlay : Bool) (d : Byte), s.fault = none →
    decode overlay (.bus (busWord false 0xFF0F d)) = .rdIf ∧
    Reads .rdIf s (BitVec.ofNat 8 (0xE0 + s.ifReg.toNat)) ∧ ∀ c, Reads .rdIf (State.ofCfg c) 0xE0

/-- R103 (the spec's own decision D14): `IF <- D[4:0]`, which a read then shows. -/
def Obligations.InterruptFlagWriteStoresFiveBits : Prop :=
  ∀ (s : State) (overlay : Bool) (d : Byte), s.fault = none →
    decode overlay (writeByte 0xFF0F d) = .wrIf d ∧
    exec (.wrIf d) s = .next { s with ifReg := BitVec.ofNat 5 (d.toNat % 32), response := none } ∧
    ∀ t, exec (.wrIf d) s = .next t → Reads .rdIf t (BitVec.ofNat 8 (0xE0 + d.toNat % 32))

/-- R104, R105 (the spec's own decision D15): the enable register is read and written like the flag register. -/
def Obligations.InterruptEnableReadAndWrite : Prop :=
  ∀ (s : State) (overlay : Bool) (d : Byte), s.fault = none →
    decode overlay (readByte 0xFFFF) = .rdIe ∧ decode overlay (writeByte 0xFFFF d) = .wrIe d ∧
    Reads .rdIe s (BitVec.ofNat 8 (0xE0 + s.ieReg.toNat)) ∧
    exec (.wrIe d) s = .next { s with ieReg := BitVec.ofNat 5 (d.toNat % 32), response := none }

/-- R106, R107 (the spec's own decision D16): twelve plain bytes, verbatim, with no side effect. -/
def Obligations.PictureUnitRegistersAreVerbatim : Prop :=
  ∀ (s : State) (overlay : Bool) (a : Addr) (d : Byte), s.fault = none → 0xFF40 ≤ a.toNat → a.toNat ≤ 0xFF4B →
    decode overlay (readByte a) = .rdPpureg a ∧ decode overlay (writeByte a d) = .wrPpureg a d ∧
    Reads (.rdPpureg a) s (byteAt s (.seg .ppureg) (a.toNat - 0xFF40)) ∧
    Stores (.wrPpureg a d) s (.seg .ppureg) (a.toNat - 0xFF40) d

/-- R108, R109 (the spec's own decision D11): the flag reads 0xFF; 0x01 ends the overlay, any other value is discarded;
after it the low addresses are the Cartridge's. -/
def Obligations.BootFlagEndsTheOverlay : Prop :=
  ∀ (s : State) (overlay : Bool) (d : Byte), s.fault = none →
    decode overlay (readByte 0xFF50) = .rdBootflag ∧ decode overlay (writeByte 0xFF50 d) = .wrBootflag d ∧
    Reads .rdBootflag s 0xFF ∧
    (d = 0x01 → exec (.wrBootflag d) s = .next { s with bootOverlayActive := false, response := none }) ∧
    (d ≠ 0x01 → Discards (.wrBootflag d) s) ∧
    ∀ t a, exec (.wrBootflag 0x01) s = .next t → a.toNat ≤ 0x3FFF →
      decode t.bootOverlayActive (readByte a) = .rdRom0 a

/-- R110, R111 (the spec's own decision D17): 127 bytes of high RAM. -/
def Obligations.HighRamReadAndWrite : Prop :=
  ∀ (s : State) (overlay : Bool) (a : Addr) (d : Byte), s.fault = none → 0xFF80 ≤ a.toNat → a.toNat ≤ 0xFFFE →
    decode overlay (readByte a) = .rdHram a ∧ decode overlay (writeByte a d) = .wrHram a d ∧
    Reads (.rdHram a) s (byteAt s (.seg .hram) (a.toNat - 0xFF80)) ∧
    Stores (.wrHram a d) s (.seg .hram) (a.toNat - 0xFF80) d

/-- R112, R113 (the spec's own decision D18): unmapped IO reads 0xFF and discards writes. -/
def Obligations.UnmappedIoReadsSentinelAndDiscards : Prop :=
  ∀ (s : State) (overlay : Bool) (a : Addr) (d : Byte), s.fault = none →
    ((0xFF01 ≤ a.toNat ∧ a.toNat ≤ 0xFF0E) ∨ (0xFF10 ≤ a.toNat ∧ a.toNat ≤ 0xFF3F) ∨
      (0xFF4C ≤ a.toNat ∧ a.toNat ≤ 0xFF4F) ∨ (0xFF51 ≤ a.toNat ∧ a.toNat ≤ 0xFF7F)) →
    decode overlay (readByte a) = .rdIoUnmapped a ∧ decode overlay (writeByte a d) = .wrIoUnmapped a d ∧
    Reads (.rdIoUnmapped a) s 0xFF ∧ Discards (.wrIoUnmapped a d) s

/-! ### Host ports -/

/-- R116 (the spec's own decision D13): one button takes its state; the others, `IF` and everything else stay. -/
def Obligations.SetButtonChangesOneButton : Prop :=
  ∀ (s : State) (n : Button) (p : Bool), s.fault = none →
    ∃ t, exec (.setButton n p) s = .next t ∧ t = { s with btn := t.btn, response := none } ∧
      getButton t.btn n = p ∧ ∀ k, k ≠ n → getButton t.btn k = getButton s.btn k

/-- R117 (the spec's own decision D22): the view of the video segment delivers what the bus read delivers. -/
def Obligations.ViewOfVideoEqualsBusRead : Prop :=
  ∀ (s : State) (o : BitVec 13), s.fault = none →
    Reads (.viewVram o) s (byteAt s (.seg .vram) o.toNat) ∧
    exec (.viewVram o) s = exec (.rdVram (BitVec.ofNat 16 (0x8000 + o.toNat))) s

/-- R118, R123, R124 (the spec's own decisions D21 and D22): below 160 the view delivers what the bus read delivers; at or
above, it records the violation, writes nothing else and delivers no data. -/
def Obligations.ViewOfObjectMemoryChecksItsBound : Prop :=
  ∀ (s : State) (o : BitVec 13), s.fault = none →
    (o.toNat < 160 → Reads (.viewOam o) s (byteAt s (.seg .oam) o.toNat) ∧
      exec (.viewOam o) s = exec (.rdOam (BitVec.ofNat 16 (0xFE00 + o.toNat))) s) ∧
    (160 ≤ o.toNat →
      exec (.viewOam o) s =
        .next { s with fault := some (.segmentBoundsViolation .oam o.toNat), response := none })

/-- R119 (the spec's own decisions D19 and D28): the read-out is `RAM_SIZE` bytes in offset order, and a session started
with it as `CRAM_INIT` has them back. That a halted session can be read out as well is the model's choice (log
entry 28). -/
def Obligations.SaveRamReadOutSurvivesTheNextSession : Prop :=
  ∀ s : State, cfgWf s.cfg = true →
    (saveRam s).length = s.cfg.ramSize ∧
    (∀ off, off < s.cfg.ramSize → (saveRam s)[off]? = some (byteAt s .cram off)) ∧
    ∃ t, sessionStart (withSaveRam s.cfg (saveRam s)) = .next t ∧ saveRam t = saveRam s
end

