-- ==== Sys2Proof/Laws/Memory.lean ====
section
/-! SUPPORT. The laws of byte arrays: what a write reads as, that it leaves every other offset alone, and that every
operation keeps the canonical form. -/

namespace Sys2Proof.Machine

@[simp] theorem memRead_nil (fill : Nat → Byte) (o : Nat) : memRead fill [] o = fill o := rfl

theorem memRead_memErase_same (fill : Nat → Byte) (m : Mem) (o : Nat) : memRead fill (memErase m o) o = fill o := by
  induction m with
  | nil => rfl
  | cons c rest ih =>
    obtain ⟨p, v⟩ := c
    by_cases h : p = o <;> simp [memErase, memRead, h, ih]

theorem memRead_memErase_other (fill : Nat → Byte) (m : Mem) {o q : Nat} (hq : q ≠ o) :
    memRead fill (memErase m o) q = memRead fill m q := by
  induction m with
  | nil => rfl
  | cons c rest ih =>
    obtain ⟨p, v⟩ := c
    by_cases h : p = o
    · subst h; simp [memErase, memRead, ih, Ne.symm hq]
    · simp [memErase, memRead, h, ih]

theorem memRead_memInsert_other (fill : Nat → Byte) (m : Mem) {o q : Nat} (v : Byte) (hq : q ≠ o) :
    memRead fill (memInsert m o v) q = memRead fill m q := by
  induction m with
  | nil => simp [memInsert, memRead, Ne.symm hq]
  | cons c rest ih =>
    obtain ⟨p, w⟩ := c
    by_cases h : o < p
    · simp [memInsert, memRead, h, Ne.symm hq]
    · simp [memInsert, memRead, h, ih]

/-- An offset that is not listed reads as `v` once it is inserted with `v`. -/
theorem memRead_memInsert_erased (fill : Nat → Byte) (m : Mem) (o : Nat) (v : Byte) :
    memRead fill (memInsert (memErase m o) o v) o = v := by
  induction m with
  | nil => simp [memErase, memInsert, memRead]
  | cons c rest ih =>
    obtain ⟨p, w⟩ := c
    by_cases h : p = o
    · simpa [memErase, h] using ih
    · by_cases hlt : o < p
      · simp [memErase, memInsert, memRead, h, hlt]
      · simp [memErase, memInsert, memRead, h, hlt, ih]

/-- A read after a write to the same offset gives the value written. -/
@[simp] theorem memRead_memWrite_same (fill : Nat → Byte) (m : Mem) (o : Nat) (v : Byte) :
    memRead fill (memWrite fill m o v) o = v := by
  by_cases h : v = fill o
  · simp [memWrite, h, memRead_memErase_same]
  · simp [memWrite, h, memRead_memInsert_erased]

/-- A write leaves every other offset alone. -/
theorem memRead_memWrite_other (fill : Nat → Byte) (m : Mem) {o q : Nat} (v : Byte) (hq : q ≠ o) :
    memRead fill (memWrite fill m o v) q = memRead fill m q := by
  by_cases h : v = fill o
  · simp [memWrite, h, memRead_memErase_other fill m hq]
  · simp [memWrite, h, memRead_memInsert_other fill _ v hq, memRead_memErase_other fill m hq]

theorem memWfFrom_mono {fill : Nat → Byte} {len lo lo' : Nat} (h : lo' ≤ lo) :
    ∀ {m : Mem}, memWfFrom fill len lo m = true → memWfFrom fill len lo' m = true
  | [], _ => rfl
  | (p, v) :: rest, hm => by
    simp only [memWfFrom, Bool.and_eq_true, decide_eq_true_eq] at hm ⊢
    exact ⟨⟨⟨by omega, hm.1.1.2⟩, hm.1.2⟩, hm.2⟩

theorem memWfFrom_memErase {fill : Nat → Byte} {len : Nat} (o : Nat) :
    ∀ {lo : Nat} {m : Mem}, memWfFrom fill len lo m = true → memWfFrom fill len lo (memErase m o) = true
  | _, [], _ => rfl
  | lo, (p, v) :: rest, hm => by
    simp only [memWfFrom, Bool.and_eq_true, decide_eq_true_eq] at hm
    have ih := memWfFrom_memErase o hm.2
    by_cases h : p = o
    · simpa [memErase, h] using memWfFrom_mono (by omega) ih
    · simp only [memErase, h, if_false, memWfFrom, Bool.and_eq_true, decide_eq_true_eq]
      exact ⟨hm.1, ih⟩

/-- `o` is listed nowhere. -/
def Unlisted (m : Mem) (o : Nat) : Prop := ∀ v, (o, v) ∉ m

theorem unlisted_memErase (m : Mem) (o : Nat) : Unlisted (memErase m o) o := by
  intro v
  induction m with
  | nil => simp [memErase]
  | cons c rest ih =>
    obtain ⟨p, w⟩ := c
    by_cases h : p = o
    · simpa [memErase, h] using ih
    · simp [memErase, h, ih, Ne.symm h]

theorem memWfFrom_memInsert {fill : Nat → Byte} {len o : Nat} {v : Byte} (hlen : o < len) (hv : v ≠ fill o) :
    ∀ {lo : Nat} {m : Mem}, lo ≤ o → Unlisted m o → memWfFrom fill len lo m = true →
      memWfFrom fill len lo (memInsert m o v) = true
  | lo, [], hlo, _, _ => by simp [memInsert, memWfFrom, hlo, hlen, hv]
  | lo, (p, w) :: rest, hlo, hun, hm => by
    simp only [memWfFrom, Bool.and_eq_true, decide_eq_true_eq] at hm
    have hp : o ≠ p := by
      rintro rfl
      exact hun w (by simp)
    by_cases h : o < p
    · simp only [memInsert, h, if_true, memWfFrom, Bool.and_eq_true, decide_eq_true_eq]
      exact ⟨⟨⟨hlo, hlen⟩, hv⟩, ⟨⟨⟨by omega, hm.1.1.2⟩, hm.1.2⟩, hm.2⟩⟩
    · simp only [memInsert, h, if_false, memWfFrom, Bool.and_eq_true, decide_eq_true_eq]
      exact ⟨hm.1, memWfFrom_memInsert hlen hv (by omega) (fun x hx => hun x (by simp [hx])) hm.2⟩

/-- A write inside the array keeps the canonical form. -/
theorem memWf_memWrite {fill : Nat → Byte} {len o : Nat} {m : Mem} (v : Byte) (hlen : o < len)
    (hm : memWf fill len m = true) : memWf fill len (memWrite fill m o v) = true := by
  have he := memWfFrom_memErase o hm
  by_cases h : v = fill o
  · simpa [memWrite, h, memWf] using he
  · simpa [memWrite, h, memWf] using memWfFrom_memInsert hlen h (Nat.zero_le o) (unlisted_memErase m o) he

/-- An array that lists nothing, as every array right after reset, is canonical. -/
@[simp] theorem memWf_nil (fill : Nat → Byte) (len : Nat) : memWf fill len [] = true := rfl

theorem memWfFrom_memOfBytes (fill : Nat → Byte) :
    ∀ (bs : List Byte) (o len : Nat), o + bs.length ≤ len → memWfFrom fill len o (memOfBytes fill o bs) = true
  | [], _, _, _ => rfl
  | b :: rest, o, len, h => by
    simp only [List.length_cons] at h
    have ih := memWfFrom_memOfBytes fill rest (o + 1) len (by omega)
    by_cases hb : b = fill o
    · simpa [memOfBytes, hb] using memWfFrom_mono (Nat.le_succ o) ih
    · simp only [memOfBytes, hb, if_false, memWfFrom, Bool.and_eq_true, decide_eq_true_eq]
      exact ⟨⟨⟨Nat.le_refl o, by omega⟩, hb⟩, ih⟩

/-- An array made of a sequence of bytes is canonical for the sequence's length. -/
theorem memWf_memOfBytes (fill : Nat → Byte) (bs : List Byte) :
    memWf fill bs.length (memOfBytes fill 0 bs) = true :=
  memWfFrom_memOfBytes fill bs 0 bs.length (by omega)

theorem memRead_memOfBytes_below (fill : Nat → Byte) :
    ∀ (bs : List Byte) (o q : Nat), q < o → memRead fill (memOfBytes fill o bs) q = fill q
  | [], _, _, _ => rfl
  | b :: rest, o, q, h => by
    have ih := memRead_memOfBytes_below fill rest (o + 1) q (by omega)
    by_cases hb : b = fill o
    · simpa [memOfBytes, hb] using ih
    · simpa [memOfBytes, hb, memRead, show o ≠ q by omega] using ih

/-- Byte `i` of the array made of a sequence is the sequence's element `i`. -/
theorem memRead_memOfBytes (fill : Nat → Byte) :
    ∀ (bs : List Byte) (o i : Nat) (h : i < bs.length), memRead fill (memOfBytes fill o bs) (o + i) = bs[i]
  | [], _, _, h => absurd h (by simp)
  | b :: rest, o, 0, _ => by
    by_cases hb : b = fill o
    · simpa [memOfBytes, hb] using memRead_memOfBytes_below fill rest (o + 1) o (by omega)
    · simp [memOfBytes, hb, memRead]
  | b :: rest, o, i + 1, h => by
    have ih := memRead_memOfBytes fill rest (o + 1) i (by simpa using h)
    have e : o + 1 + i = o + (i + 1) := by omega
    rw [e] at ih
    by_cases hb : b = fill o
    · simpa [memOfBytes, hb] using ih
    · simpa [memOfBytes, hb, memRead] using ih

end Sys2Proof.Machine
end

