-- ==== Sys2Proof/Laws/Bank.lean ====
section
/-! SUPPORT. The laws of `bound`, of the operand fields and of the bank a translation forms. -/

namespace Sys2Proof.Machine

/-! ### `bound` (R16) -/

/-- `bound(b, n) < n`. -/
theorem bound_lt (p : BankBound) (b : Nat) {n : Nat} (hn : 0 < n) : bound p b n < n := by
  cases p
  · exact Nat.mod_lt b hn
  · simp only [bound]; omega

/-- `bound(b, n) = b` when `b < n`. -/
theorem bound_of_lt (p : BankBound) {b n : Nat} (h : b < n) : bound p b n = b := by
  cases p
  · exact Nat.mod_eq_of_lt h
  · simp only [bound]; omega

/-- `bound` never raises a bank. -/
theorem bound_le (p : BankBound) (b n : Nat) : bound p b n ≤ b := by
  cases p
  · exact Nat.mod_le b n
  · simp only [bound]; omega

/-! ### Operand fields (R62, R63) -/

theorem romBankField_bounds (d : Byte) : 1 ≤ romBankField d ∧ romBankField d ≤ 31 := by
  have h : (d &&& 0x1F).toNat ≤ 31 := by
    rw [BitVec.toNat_and]
    exact Nat.and_le_right
  simp only [romBankField]
  split <;> omega

theorem romBankOffset_lt (a : Addr) : romBankOffset a < 0x4000 := by
  have h : (a &&& 0x3FFF).toNat ≤ 0x3FFF := by
    rw [BitVec.toNat_and]
    exact Nat.and_le_right
  simp only [romBankOffset]; omega

/-- `A & 0x3FFF` is `A mod 0x4000`. -/
theorem romBankOffset_eq_mod (a : Addr) : romBankOffset a = a.toNat % 0x4000 := by
  simpa [romBankOffset, BitVec.toNat_and] using Nat.and_two_pow_sub_one_eq_mod a.toNat 14

/-- A segment offset is the plain difference for an address at or past the base. -/
theorem toNat_sub_base {a b : Addr} (h : b.toNat ≤ a.toNat) : (a - b).toNat = a.toNat - b.toNat := by
  rw [BitVec.toNat_sub]
  have := a.isLt
  omega

theorem vramOffset_eq {a : Addr} (h : 0x8000 ≤ a.toNat) : vramOffset a = a.toNat - 0x8000 := toNat_sub_base h
theorem wramOffset_eq {a : Addr} (h : 0xC000 ≤ a.toNat) : wramOffset a = a.toNat - 0xC000 := toNat_sub_base h
theorem echoOffset_eq {a : Addr} (h : 0xE000 ≤ a.toNat) : echoOffset a = a.toNat - 0xE000 := toNat_sub_base h
theorem oamOffset_eq {a : Addr} (h : 0xFE00 ≤ a.toNat) : oamOffset a = a.toNat - 0xFE00 := toNat_sub_base h
theorem ppuregOffset_eq {a : Addr} (h : 0xFF40 ≤ a.toNat) : ppuregOffset a = a.toNat - 0xFF40 := toNat_sub_base h
theorem hramOffset_eq {a : Addr} (h : 0xFF80 ≤ a.toNat) : hramOffset a = a.toNat - 0xFF80 := toNat_sub_base h
theorem cramWindowOffset_eq {a : Addr} (h : 0xA000 ≤ a.toNat) : cramWindowOffset a = a.toNat - 0xA000 :=
  toNat_sub_base h

/-! ### The banks the translations form -/

/-- The largest bank R72 can form is 127 (R75). -/
theorem romBank_le (c : Cfg) (r : BankRegs) (a : Addr) : romBank c r a ≤ 127 := by
  have hs : r.secondaryRegister.toNat ≤ 3 := by have := r.secondaryRegister.isLt; omega
  have hb : r.romBankNumber.toNat ≤ 31 := by have := r.romBankNumber.isLt; omega
  have hor : (r.secondaryRegister.toNat <<< 5) ||| r.romBankNumber.toNat < 2 ^ 7 :=
    Nat.or_lt_two_pow (by rw [Nat.shiftLeft_eq]; omega) (by omega)
  unfold romBank
  split
  · split <;> omega
  · split <;> omega

/-- The bank of the high window as a number: `secondary × 32 + rom_bank_number`. -/
theorem highBank_eq (r : BankRegs) :
    (r.secondaryRegister.toNat <<< 5) ||| r.romBankNumber.toNat
      = r.secondaryRegister.toNat * 32 + r.romBankNumber.toNat := by
  rw [Nat.shiftLeft_eq, Nat.mul_comm]
  exact (Nat.two_pow_add_eq_or_of_lt (i := 5) r.romBankNumber.isLt r.secondaryRegister.toNat).symm

theorem ramBank_le (c : Cfg) (r : BankRegs) : ramBank c r ≤ 3 := by
  have hs : r.secondaryRegister.toNat ≤ 3 := by have := r.secondaryRegister.isLt; omega
  unfold ramBank
  split <;> omega

/-! ### Well-formed configurations (R7–R9) -/

theorem cfgWf_romSize {c : Cfg} (h : cfgWf c = true) : 0 < c.romSize ∧ c.romSize % 0x4000 = 0 := by
  simp only [cfgWf, Bool.and_eq_true, decide_eq_true_eq, beq_iff_eq] at h
  exact ⟨h.1.1.1.1.1, h.1.1.1.1.2⟩

theorem cfgWf_ramSize {c : Cfg} (h : cfgWf c = true) :
    c.ramSize = 0 ∨ c.ramSize = 0x800 ∨ (0 < c.ramSize ∧ c.ramSize % 0x2000 = 0) := by
  simp only [cfgWf, Bool.and_eq_true] at h
  have := h.1.1.2
  simp only [ramSizeOk, Bool.or_eq_true, Bool.and_eq_true, decide_eq_true_eq, beq_iff_eq] at this
  tauto

theorem romBankCount_pos {c : Cfg} (h : cfgWf c = true) : 0 < romBankCount c := by
  have := cfgWf_romSize h
  simp only [romBankCount]; omega

theorem ramBankCount_pos (c : Cfg) : 0 < ramBankCount c := by
  simp only [ramBankCount]; omega

end Sys2Proof.Machine
end

