-- ==== Sys2Proof/Laws/Decode.lean ====
section
/-! SUPPORT. The fields of a word and of the word an encoder makes. -/

namespace Sys2Proof

/-- The word's value, `W × 2^24 + A × 2^8 + D` (R59). -/
theorem toNat_busWord (w : Bool) (a : Addr) (d : Byte) :
    (busWord w a d).toNat = w.toNat * 2 ^ 24 + a.toNat * 2 ^ 8 + d.toNat := by
  have ha := a.isLt
  have hd := d.isLt
  have hw := Bool.toNat_lt w
  rw [busWord, BitVec.toNat_ofNat]
  omega

theorem busW_eq (w : BitVec 25) : busW w = decide (2 ^ 24 ≤ w.toNat) := by
  have := w.isLt
  have h : w.toNat / 2 ^ 24 = 0 ∨ w.toNat / 2 ^ 24 = 1 := by omega
  rw [busW, BitVec.getLsbD, Nat.testBit_eq_decide_div_mod_eq]
  rcases h with h | h
  · rw [h, decide_eq_false (show ¬2 ^ 24 ≤ w.toNat by omega)]; rfl
  · rw [h, decide_eq_true (show 2 ^ 24 ≤ w.toNat by omega)]; rfl

theorem toNat_busA (w : BitVec 25) : (busA w).toNat = w.toNat / 2 ^ 8 % 2 ^ 16 := by
  simp [busA, BitVec.extractLsb'_toNat, Nat.shiftRight_eq_div_pow]

theorem toNat_busD (w : BitVec 25) : (busD w).toNat = w.toNat % 2 ^ 8 := by
  simp [busD, BitVec.extractLsb'_toNat]

@[simp] theorem busW_busWord (w : Bool) (a : Addr) (d : Byte) : busW (busWord w a d) = w := by
  have ha := a.isLt
  have hd := d.isLt
  rw [busW_eq, toNat_busWord]
  cases w
  · simp only [Bool.toNat_false, decide_eq_false_iff_not]; omega
  · simp only [Bool.toNat_true, decide_eq_true_eq]; omega

@[simp] theorem busA_busWord (w : Bool) (a : Addr) (d : Byte) : busA (busWord w a d) = a := by
  have ha := a.isLt
  have hd := d.isLt
  apply BitVec.eq_of_toNat_eq
  rw [toNat_busA, toNat_busWord]
  omega

@[simp] theorem busD_busWord (w : Bool) (a : Addr) (d : Byte) : busD (busWord w a d) = d := by
  have hd := d.isLt
  apply BitVec.eq_of_toNat_eq
  rw [toNat_busD, toNat_busWord]
  omega

/-- A word is made of its three fields (R59). -/
theorem busWord_fields (w : BitVec 25) : busWord (busW w) (busA w) (busD w) = w := by
  have h := w.isLt
  apply BitVec.eq_of_toNat_eq
  rw [toNat_busWord, toNat_busA, toNat_busD, busW_eq]
  by_cases h24 : 2 ^ 24 ≤ w.toNat
  · simp only [h24, decide_true, Bool.toNat_true]; omega
  · simp only [h24, decide_false, Bool.toNat_false]; omega

@[simp] theorem buttonOf_buttonIndex (n : Button) : buttonOf (buttonIndex n) = n := by cases n <;> rfl

theorem buttonIndex_buttonOf (x : BitVec 3) : buttonIndex (buttonOf x) = x := by
  revert x; decide

/-- `B` of a setter's word (R60). -/
@[simp] theorem btnWord_index (x : BitVec 3) (p : Bool) : (btnWord x p).extractLsb' 1 3 = x := by
  revert x p; decide

/-- `P` of a setter's word (R60). -/
@[simp] theorem btnWord_pressed (x : BitVec 3) (p : Bool) : (btnWord x p)[0] = p := by
  revert x p; decide

theorem toNat_viewWord (g : Bool) (o : BitVec 13) : (viewWord g o).toNat = g.toNat * 2 ^ 13 + o.toNat := by
  have ho := o.isLt
  have hg := Bool.toNat_lt g
  rw [viewWord, BitVec.toNat_ofNat]
  omega

/-- `G` of a view's word (R61). -/
@[simp] theorem viewWord_oam (g : Bool) (o : BitVec 13) : (viewWord g o)[13] = g := by
  have ho := o.isLt
  have h : (viewWord g o).toNat / 2 ^ 13 = g.toNat := by rw [toNat_viewWord]; omega
  rw [← BitVec.getLsbD_eq_getElem, BitVec.getLsbD, Nat.testBit_eq_decide_div_mod_eq, h]
  cases g <;> rfl

/-- `O` of a view's word (R61). -/
@[simp] theorem viewWord_offset (g : Bool) (o : BitVec 13) : (viewWord g o).extractLsb' 0 13 = o := by
  have ho := o.isLt
  apply BitVec.eq_of_toNat_eq
  rw [BitVec.extractLsb'_toNat, toNat_viewWord, Nat.shiftRight_zero]
  omega

/-- Decoding a `readByte` is a row of the read column. -/
@[simp] theorem decode_readByte (overlay : Bool) (a : Addr) :
    decode overlay (readByte a) = decodeRead overlay a := by simp [decode, readByte]

/-- Decoding a `writeByte` is a row of the write column, whatever the overlay state. -/
@[simp] theorem decode_writeByte (overlay : Bool) (a : Addr) (d : Byte) :
    decode overlay (writeByte a d) = decodeWrite a d := by simp [decode, writeByte]

/-! ### The region of an address -/

/-- The region's range, row by row of 20_memory.md R42. -/
inductive RegionSpec (n : Nat) : Region → Prop where
  | bootOverlay (lo : 0x0000 ≤ n) (hi : n ≤ 0x00FF) : RegionSpec n .bootOverlay
  | rom0RamEnable (lo : 0x0100 ≤ n) (hi : n ≤ 0x1FFF) : RegionSpec n .rom0RamEnable
  | rom0RomBank (lo : 0x2000 ≤ n) (hi : n ≤ 0x3FFF) : RegionSpec n .rom0RomBank
  | romXSecondary (lo : 0x4000 ≤ n) (hi : n ≤ 0x5FFF) : RegionSpec n .romXSecondary
  | romXMode (lo : 0x6000 ≤ n) (hi : n ≤ 0x7FFF) : RegionSpec n .romXMode
  | video (lo : 0x8000 ≤ n) (hi : n ≤ 0x9FFF) : RegionSpec n .video
  | cartridgeRam (lo : 0xA000 ≤ n) (hi : n ≤ 0xBFFF) : RegionSpec n .cartridgeRam
  | work (lo : 0xC000 ≤ n) (hi : n ≤ 0xDFFF) : RegionSpec n .work
  | echo (lo : 0xE000 ≤ n) (hi : n ≤ 0xFDFF) : RegionSpec n .echo
  | objectAttribute (lo : 0xFE00 ≤ n) (hi : n ≤ 0xFE9F) : RegionSpec n .objectAttribute
  | unusable (lo : 0xFEA0 ≤ n) (hi : n ≤ 0xFEFF) : RegionSpec n .unusable
  | joypad (lo : 0xFF00 ≤ n) (hi : n ≤ 0xFF00) : RegionSpec n .joypad
  | ioUnmapped1 (lo : 0xFF01 ≤ n) (hi : n ≤ 0xFF0E) : RegionSpec n .ioUnmapped
  | interruptFlag (lo : 0xFF0F ≤ n) (hi : n ≤ 0xFF0F) : RegionSpec n .interruptFlag
  | ioUnmapped2 (lo : 0xFF10 ≤ n) (hi : n ≤ 0xFF3F) : RegionSpec n .ioUnmapped
  | pictureUnit (lo : 0xFF40 ≤ n) (hi : n ≤ 0xFF4B) : RegionSpec n .pictureUnit
  | ioUnmapped3 (lo : 0xFF4C ≤ n) (hi : n ≤ 0xFF4F) : RegionSpec n .ioUnmapped
  | bootFlag (lo : 0xFF50 ≤ n) (hi : n ≤ 0xFF50) : RegionSpec n .bootFlag
  | ioUnmapped4 (lo : 0xFF51 ≤ n) (hi : n ≤ 0xFF7F) : RegionSpec n .ioUnmapped
  | highRam (lo : 0xFF80 ≤ n) (hi : n ≤ 0xFFFE) : RegionSpec n .highRam
  | interruptEnable (lo : 0xFFFF ≤ n) (hi : n ≤ 0xFFFF) : RegionSpec n .interruptEnable

/-- Everything `regionOf` can answer. -/
theorem regionOf_spec (a : Addr) : RegionSpec a.toNat (regionOf a) := by
  have hlt := a.isLt
  unfold regionOf
  generalize a.toNat = n at hlt ⊢
  unfold regionAt
  by_cases h : n ≤ 0x00FF
  · rw [if_pos h]; exact .bootOverlay (by omega) h
  rw [if_neg h]
  by_cases h : n ≤ 0x1FFF
  · rw [if_pos h]; exact .rom0RamEnable (by omega) h
  rw [if_neg h]
  by_cases h : n ≤ 0x3FFF
  · rw [if_pos h]; exact .rom0RomBank (by omega) h
  rw [if_neg h]
  by_cases h : n ≤ 0x5FFF
  · rw [if_pos h]; exact .romXSecondary (by omega) h
  rw [if_neg h]
  by_cases h : n ≤ 0x7FFF
  · rw [if_pos h]; exact .romXMode (by omega) h
  rw [if_neg h]
  by_cases h : n ≤ 0x9FFF
  · rw [if_pos h]; exact .video (by omega) h
  rw [if_neg h]
  by_cases h : n ≤ 0xBFFF
  · rw [if_pos h]; exact .cartridgeRam (by omega) h
  rw [if_neg h]
  by_cases h : n ≤ 0xDFFF
  · rw [if_pos h]; exact .work (by omega) h
  rw [if_neg h]
  by_cases h : n ≤ 0xFDFF
  · rw [if_pos h]; exact .echo (by omega) h
  rw [if_neg h]
  by_cases h : n ≤ 0xFE9F
  · rw [if_pos h]; exact .objectAttribute (by omega) h
  rw [if_neg h]
  by_cases h : n ≤ 0xFEFF
  · rw [if_pos h]; exact .unusable (by omega) h
  rw [if_neg h]
  by_cases h : n ≤ 0xFF00
  · rw [if_pos h]; exact .joypad (by omega) h
  rw [if_neg h]
  by_cases h : n ≤ 0xFF0E
  · rw [if_pos h]; exact .ioUnmapped1 (by omega) h
  rw [if_neg h]
  by_cases h : n ≤ 0xFF0F
  · rw [if_pos h]; exact .interruptFlag (by omega) h
  rw [if_neg h]
  by_cases h : n ≤ 0xFF3F
  · rw [if_pos h]; exact .ioUnmapped2 (by omega) h
  rw [if_neg h]
  by_cases h : n ≤ 0xFF4B
  · rw [if_pos h]; exact .pictureUnit (by omega) h
  rw [if_neg h]
  by_cases h : n ≤ 0xFF4F
  · rw [if_pos h]; exact .ioUnmapped3 (by omega) h
  rw [if_neg h]
  by_cases h : n ≤ 0xFF50
  · rw [if_pos h]; exact .bootFlag (by omega) h
  rw [if_neg h]
  by_cases h : n ≤ 0xFF7F
  · rw [if_pos h]; exact .ioUnmapped4 (by omega) h
  rw [if_neg h]
  by_cases h : n ≤ 0xFFFE
  · rw [if_pos h]; exact .highRam (by omega) h
  rw [if_neg h]
  exact .interruptEnable (by omega) (by omega)

theorem regionOf_bootOverlay {a : Addr}
    (h : 0x0000 ≤ a.toNat ∧ a.toNat ≤ 0x00FF) : regionOf a = .bootOverlay := by
  have hs := regionOf_spec a
  generalize regionOf a = r at hs ⊢
  cases hs <;> first | rfl | omega

theorem regionOf_rom0RamEnable {a : Addr}
    (h : 0x0100 ≤ a.toNat ∧ a.toNat ≤ 0x1FFF) : regionOf a = .rom0RamEnable := by
  have hs := regionOf_spec a
  generalize regionOf a = r at hs ⊢
  cases hs <;> first | rfl | omega

theorem regionOf_rom0RomBank {a : Addr}
    (h : 0x2000 ≤ a.toNat ∧ a.toNat ≤ 0x3FFF) : regionOf a = .rom0RomBank := by
  have hs := regionOf_spec a
  generalize regionOf a = r at hs ⊢
  cases hs <;> first | rfl | omega

theorem regionOf_romXSecondary {a : Addr}
    (h : 0x4000 ≤ a.toNat ∧ a.toNat ≤ 0x5FFF) : regionOf a = .romXSecondary := by
  have hs := regionOf_spec a
  generalize regionOf a = r at hs ⊢
  cases hs <;> first | rfl | omega

theorem regionOf_romXMode {a : Addr}
    (h : 0x6000 ≤ a.toNat ∧ a.toNat ≤ 0x7FFF) : regionOf a = .romXMode := by
  have hs := regionOf_spec a
  generalize regionOf a = r at hs ⊢
  cases hs <;> first | rfl | omega

theorem regionOf_video {a : Addr}
    (h : 0x8000 ≤ a.toNat ∧ a.toNat ≤ 0x9FFF) : regionOf a = .video := by
  have hs := regionOf_spec a
  generalize regionOf a = r at hs ⊢
  cases hs <;> first | rfl | omega

theorem regionOf_cartridgeRam {a : Addr}
    (h : 0xA000 ≤ a.toNat ∧ a.toNat ≤ 0xBFFF) : regionOf a = .cartridgeRam := by
  have hs := regionOf_spec a
  generalize regionOf a = r at hs ⊢
  cases hs <;> first | rfl | omega

theorem regionOf_work {a : Addr}
    (h : 0xC000 ≤ a.toNat ∧ a.toNat ≤ 0xDFFF) : regionOf a = .work := by
  have hs := regionOf_spec a
  generalize regionOf a = r at hs ⊢
  cases hs <;> first | rfl | omega

theorem regionOf_echo {a : Addr}
    (h : 0xE000 ≤ a.toNat ∧ a.toNat ≤ 0xFDFF) : regionOf a = .echo := by
  have hs := regionOf_spec a
  generalize regionOf a = r at hs ⊢
  cases hs <;> first | rfl | omega

theorem regionOf_objectAttribute {a : Addr}
    (h : 0xFE00 ≤ a.toNat ∧ a.toNat ≤ 0xFE9F) : regionOf a = .objectAttribute := by
  have hs := regionOf_spec a
  generalize regionOf a = r at hs ⊢
  cases hs <;> first | rfl | omega

theorem regionOf_unusable {a : Addr}
    (h : 0xFEA0 ≤ a.toNat ∧ a.toNat ≤ 0xFEFF) : regionOf a = .unusable := by
  have hs := regionOf_spec a
  generalize regionOf a = r at hs ⊢
  cases hs <;> first | rfl | omega

theorem regionOf_joypad {a : Addr}
    (h : 0xFF00 ≤ a.toNat ∧ a.toNat ≤ 0xFF00) : regionOf a = .joypad := by
  have hs := regionOf_spec a
  generalize regionOf a = r at hs ⊢
  cases hs <;> first | rfl | omega

theorem regionOf_ioUnmapped {a : Addr}
    (h : (0xFF01 ≤ a.toNat ∧ a.toNat ≤ 0xFF0E) ∨ (0xFF10 ≤ a.toNat ∧ a.toNat ≤ 0xFF3F) ∨ (0xFF4C ≤ a.toNat ∧ a.toNat ≤ 0xFF4F) ∨ (0xFF51 ≤ a.toNat ∧ a.toNat ≤ 0xFF7F)) : regionOf a = .ioUnmapped := by
  have hs := regionOf_spec a
  generalize regionOf a = r at hs ⊢
  cases hs <;> first | rfl | omega

theorem regionOf_interruptFlag {a : Addr}
    (h : 0xFF0F ≤ a.toNat ∧ a.toNat ≤ 0xFF0F) : regionOf a = .interruptFlag := by
  have hs := regionOf_spec a
  generalize regionOf a = r at hs ⊢
  cases hs <;> first | rfl | omega

theorem regionOf_pictureUnit {a : Addr}
    (h : 0xFF40 ≤ a.toNat ∧ a.toNat ≤ 0xFF4B) : regionOf a = .pictureUnit := by
  have hs := regionOf_spec a
  generalize regionOf a = r at hs ⊢
  cases hs <;> first | rfl | omega

theorem regionOf_bootFlag {a : Addr}
    (h : 0xFF50 ≤ a.toNat ∧ a.toNat ≤ 0xFF50) : regionOf a = .bootFlag := by
  have hs := regionOf_spec a
  generalize regionOf a = r at hs ⊢
  cases hs <;> first | rfl | omega

theorem regionOf_highRam {a : Addr}
    (h : 0xFF80 ≤ a.toNat ∧ a.toNat ≤ 0xFFFE) : regionOf a = .highRam := by
  have hs := regionOf_spec a
  generalize regionOf a = r at hs ⊢
  cases hs <;> first | rfl | omega

theorem regionOf_interruptEnable {a : Addr}
    (h : 0xFFFF ≤ a.toNat ∧ a.toNat ≤ 0xFFFF) : regionOf a = .interruptEnable := by
  have hs := regionOf_spec a
  generalize regionOf a = r at hs ⊢
  cases hs <;> first | rfl | omega

theorem inRange_iff {lo hi : Nat} {a : Addr} : inRange lo hi a = true ↔ lo ≤ a.toNat ∧ a.toNat ≤ hi := by
  simp [inRange]

theorem isUnmappedIo_iff {a : Addr} : isUnmappedIo a = true ↔
    (0xFF01 ≤ a.toNat ∧ a.toNat ≤ 0xFF0E) ∨ (0xFF10 ≤ a.toNat ∧ a.toNat ≤ 0xFF3F) ∨
      (0xFF4C ≤ a.toNat ∧ a.toNat ≤ 0xFF4F) ∨ (0xFF51 ≤ a.toNat ∧ a.toNat ≤ 0xFF7F) := by
  simp only [isUnmappedIo, Bool.or_eq_true, inRange_iff]
  tauto

end Sys2Proof
end

