-- ==== Sys2Proof/Laws/State.lean ====
section
/-! SUPPORT. State updates field by field: what each ending of a transaction and each array update leaves in each field,
and the byte read after each. -/

namespace Sys2Proof.Machine

/-! ### `deliver` -/

@[simp] theorem deliver_cfg (v : Byte) (s : State) : (deliver v s).cfg = s.cfg := rfl
@[simp] theorem deliver_bank (v : Byte) (s : State) : (deliver v s).bank = s.bank := rfl
@[simp] theorem deliver_cram (v : Byte) (s : State) : (deliver v s).cram = s.cram := rfl
@[simp] theorem deliver_vram (v : Byte) (s : State) : (deliver v s).vram = s.vram := rfl
@[simp] theorem deliver_wram (v : Byte) (s : State) : (deliver v s).wram = s.wram := rfl
@[simp] theorem deliver_oam (v : Byte) (s : State) : (deliver v s).oam = s.oam := rfl
@[simp] theorem deliver_hram (v : Byte) (s : State) : (deliver v s).hram = s.hram := rfl
@[simp] theorem deliver_ppureg (v : Byte) (s : State) : (deliver v s).ppureg = s.ppureg := rfl
@[simp] theorem deliver_bootOverlayActive (v : Byte) (s : State) : (deliver v s).bootOverlayActive = s.bootOverlayActive := rfl
@[simp] theorem deliver_joypSel (v : Byte) (s : State) : (deliver v s).joypSel = s.joypSel := rfl
@[simp] theorem deliver_btn (v : Byte) (s : State) : (deliver v s).btn = s.btn := rfl
@[simp] theorem deliver_ifReg (v : Byte) (s : State) : (deliver v s).ifReg = s.ifReg := rfl
@[simp] theorem deliver_ieReg (v : Byte) (s : State) : (deliver v s).ieReg = s.ieReg := rfl
@[simp] theorem deliver_fault (v : Byte) (s : State) : (deliver v s).fault = s.fault := rfl
@[simp] theorem deliver_response (v : Byte) (s : State) : (deliver v s).response = some v := rfl
@[simp] theorem deliver_schedule (v : Byte) (s : State) : (deliver v s).schedule = s.schedule := rfl
@[simp] theorem deliver_draws (v : Byte) (s : State) : (deliver v s).draws = s.draws := rfl
@[simp] theorem byteAt_deliver (v : Byte) (s : State) (r : Ram) (o : Nat) : byteAt (deliver v s) r o = byteAt s r o := by
  cases r with
  | cram => rfl
  | seg g => cases g <;> rfl
@[simp] theorem cellsOf_deliver (v : Byte) (s : State) (r : Ram) : cellsOf (deliver v s) r = cellsOf s r := by
  cases r with
  | cram => rfl
  | seg g => cases g <;> rfl

/-! ### `complete` -/

@[simp] theorem complete_cfg (s : State) : (complete s).cfg = s.cfg := rfl
@[simp] theorem complete_bank (s : State) : (complete s).bank = s.bank := rfl
@[simp] theorem complete_cram (s : State) : (complete s).cram = s.cram := rfl
@[simp] theorem complete_vram (s : State) : (complete s).vram = s.vram := rfl
@[simp] theorem complete_wram (s : State) : (complete s).wram = s.wram := rfl
@[simp] theorem complete_oam (s : State) : (complete s).oam = s.oam := rfl
@[simp] theorem complete_hram (s : State) : (complete s).hram = s.hram := rfl
@[simp] theorem complete_ppureg (s : State) : (complete s).ppureg = s.ppureg := rfl
@[simp] theorem complete_bootOverlayActive (s : State) : (complete s).bootOverlayActive = s.bootOverlayActive := rfl
@[simp] theorem complete_joypSel (s : State) : (complete s).joypSel = s.joypSel := rfl
@[simp] theorem complete_btn (s : State) : (complete s).btn = s.btn := rfl
@[simp] theorem complete_ifReg (s : State) : (complete s).ifReg = s.ifReg := rfl
@[simp] theorem complete_ieReg (s : State) : (complete s).ieReg = s.ieReg := rfl
@[simp] theorem complete_fault (s : State) : (complete s).fault = s.fault := rfl
@[simp] theorem complete_response (s : State) : (complete s).response = none := rfl
@[simp] theorem complete_schedule (s : State) : (complete s).schedule = s.schedule := rfl
@[simp] theorem complete_draws (s : State) : (complete s).draws = s.draws := rfl
@[simp] theorem byteAt_complete (s : State) (r : Ram) (o : Nat) : byteAt (complete s) r o = byteAt s r o := by
  cases r with
  | cram => rfl
  | seg g => cases g <;> rfl
@[simp] theorem cellsOf_complete (s : State) (r : Ram) : cellsOf (complete s) r = cellsOf s r := by
  cases r with
  | cram => rfl
  | seg g => cases g <;> rfl

/-! ### `raiseFault` -/

@[simp] theorem raiseFault_cfg (f : BusFault) (s : State) : (raiseFault f s).cfg = s.cfg := rfl
@[simp] theorem raiseFault_bank (f : BusFault) (s : State) : (raiseFault f s).bank = s.bank := rfl
@[simp] theorem raiseFault_cram (f : BusFault) (s : State) : (raiseFault f s).cram = s.cram := rfl
@[simp] theorem raiseFault_vram (f : BusFault) (s : State) : (raiseFault f s).vram = s.vram := rfl
@[simp] theorem raiseFault_wram (f : BusFault) (s : State) : (raiseFault f s).wram = s.wram := rfl
@[simp] theorem raiseFault_oam (f : BusFault) (s : State) : (raiseFault f s).oam = s.oam := rfl
@[simp] theorem raiseFault_hram (f : BusFault) (s : State) : (raiseFault f s).hram = s.hram := rfl
@[simp] theorem raiseFault_ppureg (f : BusFault) (s : State) : (raiseFault f s).ppureg = s.ppureg := rfl
@[simp] theorem raiseFault_bootOverlayActive (f : BusFault) (s : State) : (raiseFault f s).bootOverlayActive = s.bootOverlayActive := rfl
@[simp] theorem raiseFault_joypSel (f : BusFault) (s : State) : (raiseFault f s).joypSel = s.joypSel := rfl
@[simp] theorem raiseFault_btn (f : BusFault) (s : State) : (raiseFault f s).btn = s.btn := rfl
@[simp] theorem raiseFault_ifReg (f : BusFault) (s : State) : (raiseFault f s).ifReg = s.ifReg := rfl
@[simp] theorem raiseFault_ieReg (f : BusFault) (s : State) : (raiseFault f s).ieReg = s.ieReg := rfl
@[simp] theorem raiseFault_fault (f : BusFault) (s : State) : (raiseFault f s).fault = some f := rfl
@[simp] theorem raiseFault_response (f : BusFault) (s : State) : (raiseFault f s).response = none := rfl
@[simp] theorem raiseFault_schedule (f : BusFault) (s : State) : (raiseFault f s).schedule = s.schedule := rfl
@[simp] theorem raiseFault_draws (f : BusFault) (s : State) : (raiseFault f s).draws = s.draws := rfl
@[simp] theorem byteAt_raiseFault (f : BusFault) (s : State) (r : Ram) (o : Nat) : byteAt (raiseFault f s) r o = byteAt s r o := by
  cases r with
  | cram => rfl
  | seg g => cases g <;> rfl
@[simp] theorem cellsOf_raiseFault (f : BusFault) (s : State) (r : Ram) : cellsOf (raiseFault f s) r = cellsOf s r := by
  cases r with
  | cram => rfl
  | seg g => cases g <;> rfl

/-! ### `idle` -/

@[simp] theorem idle_cfg (s : State) : (idle s).cfg = s.cfg := rfl
@[simp] theorem idle_bank (s : State) : (idle s).bank = s.bank := rfl
@[simp] theorem idle_cram (s : State) : (idle s).cram = s.cram := rfl
@[simp] theorem idle_vram (s : State) : (idle s).vram = s.vram := rfl
@[simp] theorem idle_wram (s : State) : (idle s).wram = s.wram := rfl
@[simp] theorem idle_oam (s : State) : (idle s).oam = s.oam := rfl
@[simp] theorem idle_hram (s : State) : (idle s).hram = s.hram := rfl
@[simp] theorem idle_ppureg (s : State) : (idle s).ppureg = s.ppureg := rfl
@[simp] theorem idle_bootOverlayActive (s : State) : (idle s).bootOverlayActive = s.bootOverlayActive := rfl
@[simp] theorem idle_joypSel (s : State) : (idle s).joypSel = s.joypSel := rfl
@[simp] theorem idle_btn (s : State) : (idle s).btn = s.btn := rfl
@[simp] theorem idle_ifReg (s : State) : (idle s).ifReg = s.ifReg := rfl
@[simp] theorem idle_ieReg (s : State) : (idle s).ieReg = s.ieReg := rfl
@[simp] theorem idle_fault (s : State) : (idle s).fault = s.fault := rfl
@[simp] theorem idle_response (s : State) : (idle s).response = none := rfl
@[simp] theorem idle_schedule (s : State) : (idle s).schedule = s.schedule := rfl
@[simp] theorem idle_draws (s : State) : (idle s).draws = s.draws := rfl
@[simp] theorem byteAt_idle (s : State) (r : Ram) (o : Nat) : byteAt (idle s) r o = byteAt s r o := by
  cases r with
  | cram => rfl
  | seg g => cases g <;> rfl
@[simp] theorem cellsOf_idle (s : State) (r : Ram) : cellsOf (idle s) r = cellsOf s r := by
  cases r with
  | cram => rfl
  | seg g => cases g <;> rfl

/-! ### `withCells` and `setByte` -/

@[simp] theorem withCells_cfg (s : State) (r : Ram) (m : Mem) : (withCells s r m).cfg = s.cfg := by
  cases r with
  | cram => rfl
  | seg g => cases g <;> rfl

@[simp] theorem withCells_bank (s : State) (r : Ram) (m : Mem) : (withCells s r m).bank = s.bank := by
  cases r with
  | cram => rfl
  | seg g => cases g <;> rfl

@[simp] theorem withCells_bootOverlayActive (s : State) (r : Ram) (m : Mem) : (withCells s r m).bootOverlayActive = s.bootOverlayActive := by
  cases r with
  | cram => rfl
  | seg g => cases g <;> rfl

@[simp] theorem withCells_joypSel (s : State) (r : Ram) (m : Mem) : (withCells s r m).joypSel = s.joypSel := by
  cases r with
  | cram => rfl
  | seg g => cases g <;> rfl

@[simp] theorem withCells_btn (s : State) (r : Ram) (m : Mem) : (withCells s r m).btn = s.btn := by
  cases r with
  | cram => rfl
  | seg g => cases g <;> rfl

@[simp] theorem withCells_ifReg (s : State) (r : Ram) (m : Mem) : (withCells s r m).ifReg = s.ifReg := by
  cases r with
  | cram => rfl
  | seg g => cases g <;> rfl

@[simp] theorem withCells_ieReg (s : State) (r : Ram) (m : Mem) : (withCells s r m).ieReg = s.ieReg := by
  cases r with
  | cram => rfl
  | seg g => cases g <;> rfl

@[simp] theorem withCells_fault (s : State) (r : Ram) (m : Mem) : (withCells s r m).fault = s.fault := by
  cases r with
  | cram => rfl
  | seg g => cases g <;> rfl

@[simp] theorem withCells_response (s : State) (r : Ram) (m : Mem) : (withCells s r m).response = s.response := by
  cases r with
  | cram => rfl
  | seg g => cases g <;> rfl

@[simp] theorem withCells_schedule (s : State) (r : Ram) (m : Mem) : (withCells s r m).schedule = s.schedule := by
  cases r with
  | cram => rfl
  | seg g => cases g <;> rfl

@[simp] theorem withCells_draws (s : State) (r : Ram) (m : Mem) : (withCells s r m).draws = s.draws := by
  cases r with
  | cram => rfl
  | seg g => cases g <;> rfl

@[simp] theorem setByte_cfg (s : State) (r : Ram) (o : Nat) (v : Byte) : (setByte s r o v).cfg = s.cfg :=
  withCells_cfg s r _

@[simp] theorem setByte_bank (s : State) (r : Ram) (o : Nat) (v : Byte) : (setByte s r o v).bank = s.bank :=
  withCells_bank s r _

@[simp] theorem setByte_bootOverlayActive (s : State) (r : Ram) (o : Nat) (v : Byte) : (setByte s r o v).bootOverlayActive = s.bootOverlayActive :=
  withCells_bootOverlayActive s r _

@[simp] theorem setByte_joypSel (s : State) (r : Ram) (o : Nat) (v : Byte) : (setByte s r o v).joypSel = s.joypSel :=
  withCells_joypSel s r _

@[simp] theorem setByte_btn (s : State) (r : Ram) (o : Nat) (v : Byte) : (setByte s r o v).btn = s.btn :=
  withCells_btn s r _

@[simp] theorem setByte_ifReg (s : State) (r : Ram) (o : Nat) (v : Byte) : (setByte s r o v).ifReg = s.ifReg :=
  withCells_ifReg s r _

@[simp] theorem setByte_ieReg (s : State) (r : Ram) (o : Nat) (v : Byte) : (setByte s r o v).ieReg = s.ieReg :=
  withCells_ieReg s r _

@[simp] theorem setByte_fault (s : State) (r : Ram) (o : Nat) (v : Byte) : (setByte s r o v).fault = s.fault :=
  withCells_fault s r _

@[simp] theorem setByte_response (s : State) (r : Ram) (o : Nat) (v : Byte) : (setByte s r o v).response = s.response :=
  withCells_response s r _

@[simp] theorem setByte_schedule (s : State) (r : Ram) (o : Nat) (v : Byte) : (setByte s r o v).schedule = s.schedule :=
  withCells_schedule s r _

@[simp] theorem setByte_draws (s : State) (r : Ram) (o : Nat) (v : Byte) : (setByte s r o v).draws = s.draws :=
  withCells_draws s r _

@[simp] theorem cellsOf_withCells_same (s : State) (r : Ram) (m : Mem) : cellsOf (withCells s r m) r = m := by
  cases r with
  | cram => rfl
  | seg g => cases g <;> rfl

theorem cellsOf_withCells_other (s : State) {r r' : Ram} (m : Mem) (h : r' ≠ r) :
    cellsOf (withCells s r m) r' = cellsOf s r' := by
  rcases r with _ | g <;> rcases r' with _ | g' <;> first | exact absurd rfl h | rfl | skip
  · cases g' <;> rfl
  · cases g <;> rfl
  · cases g <;> cases g' <;> first | exact absurd rfl h | rfl

/-- The byte stored reads back. -/
@[simp] theorem byteAt_setByte_same (s : State) (r : Ram) (o : Nat) (v : Byte) : byteAt (setByte s r o v) r o = v := by
  simp [byteAt, setByte]

/-- Every other byte of every array reads as before. -/
theorem byteAt_setByte_other (s : State) {r r' : Ram} {o o' : Nat} (v : Byte) (h : (r', o') ≠ (r, o)) :
    byteAt (setByte s r o v) r' o' = byteAt s r' o' := by
  by_cases hr : r' = r
  · subst hr
    have ho : o' ≠ o := fun e => h (by rw [e])
    simp [byteAt, setByte, memRead_memWrite_other _ _ v ho]
  · simp [byteAt, setByte, cellsOf_withCells_other s _ hr]

/-- A store inside its array keeps every array canonical. -/
theorem arrays_setByte {s : State} {r : Ram} {o : Nat} (v : Byte) (ho : o < ramLength s.cfg r)
    (hs : ∀ r', memWf (fillOf s.cfg r') (ramLength s.cfg r') (cellsOf s r') = true) (r' : Ram) :
    memWf (fillOf s.cfg r') (ramLength s.cfg r') (cellsOf (setByte s r o v) r') = true := by
  by_cases hr : r' = r
  · subst hr
    simpa [setByte] using memWf_memWrite v ho (hs r')
  · simpa [setByte, cellsOf_withCells_other s _ hr] using hs r'

/-- Right after any session start no array lists anything, so every array is canonical. -/
theorem arrays_ofCfg (c : Cfg) (r : Ram) : memWf (fillOf c r) (ramLength c r) (cellsOf (State.ofCfg c) r) = true := by
  rcases r with _ | g
  · rfl
  · cases g <;> rfl

end Sys2Proof.Machine
end

