-- ==== Sys2Proof/Laws/Ops.lean ====
section
/-! SUPPORT. One lemma per shared operation: everything it can do. -/

namespace Sys2Proof.Machine

/-- A transaction steps only in a session that is not halted, and to the state it names. -/
theorem transact_next {s t t' : State} : transact s t = .next t' ↔ s.fault = none ∧ t = t' := by
  unfold transact
  cases h : s.fault <;> simp

@[simp] theorem transact_running {s t : State} (h : s.fault = none) : transact s t = .next t := by
  simp [transact, h]

@[simp] theorem transact_halted {s t : State} {f : BusFault} (h : s.fault = some f) :
    transact s t = .fault (.halted f) := by
  simp [transact, h]

/-- A transaction is never refused. -/
theorem transact_not_refused (s t : State) (r : Refusal) : transact s t ≠ .refused r := by
  unfold transact
  cases s.fault <;> simp

/-- A segment read delivers the byte, or records the violation past the end. -/
theorem readSegment_cases (g : Segment) (o : Nat) (s : State) :
    (o < segmentLength g ∧ readSegment g o s = deliver (byteAt s (.seg g) o) s) ∨
      (segmentLength g ≤ o ∧ readSegment g o s = raiseFault (.segmentBoundsViolation g o) s) := by
  by_cases h : o < segmentLength g
  · exact .inl ⟨h, by simp [readSegment, h]⟩
  · exact .inr ⟨by omega, by simp [readSegment, h]⟩

/-- A segment write stores the byte, or records the violation past the end and stores nothing. -/
theorem writeSegment_cases (g : Segment) (o : Nat) (v : Byte) (s : State) :
    (o < segmentLength g ∧ writeSegment g o v s = complete (setByte s (.seg g) o v)) ∨
      (segmentLength g ≤ o ∧ writeSegment g o v s = raiseFault (.segmentBoundsViolation g o) s) := by
  by_cases h : o < segmentLength g
  · exact .inl ⟨h, by simp [writeSegment, h]⟩
  · exact .inr ⟨by omega, by simp [writeSegment, h]⟩

theorem readSegment_inside {g : Segment} {o : Nat} (s : State) (h : o < segmentLength g) :
    readSegment g o s = deliver (byteAt s (.seg g) o) s := by simp [readSegment, h]

theorem writeSegment_inside {g : Segment} {o : Nat} (v : Byte) (s : State) (h : o < segmentLength g) :
    writeSegment g o v s = complete (setByte s (.seg g) o v) := by simp [writeSegment, h]

/-- A ROM read delivers the byte the translation selects, or records the decode failure. -/
theorem readRom_cases (a : Addr) (s : State) :
    (romOffset s.cfg s.bank a < s.cfg.romSize ∧
        readRom a s = deliver (romByte s.cfg (romOffset s.cfg s.bank a)) s) ∨
      (s.cfg.romSize ≤ romOffset s.cfg s.bank a ∧
        readRom a s = raiseFault (.addressDecodeFailure a (romOffset s.cfg s.bank a) .rom) s) := by
  by_cases h : romOffset s.cfg s.bank a < s.cfg.romSize
  · exact .inl ⟨h, by simp [readRom, h]⟩
  · exact .inr ⟨by omega, by simp [readRom, h]⟩

/-- A Persistent RAM read delivers the sentinel, or the byte the translation selects, or records the decode failure. -/
theorem readCram_cases (a : Addr) (s : State) :
    (ramReachable s.cfg s.bank = false ∧ readCram a s = deliver sentinel s) ∨
      (ramReachable s.cfg s.bank = true ∧ ramOffset s.cfg s.bank a < s.cfg.ramSize ∧
        readCram a s = deliver (byteAt s .cram (ramOffset s.cfg s.bank a)) s) ∨
      (ramReachable s.cfg s.bank = true ∧ s.cfg.ramSize ≤ ramOffset s.cfg s.bank a ∧
        readCram a s = raiseFault (.addressDecodeFailure a (ramOffset s.cfg s.bank a) .cram) s) := by
  cases hr : ramReachable s.cfg s.bank
  · exact .inl ⟨rfl, by simp [readCram, hr]⟩
  · by_cases h : ramOffset s.cfg s.bank a < s.cfg.ramSize
    · exact .inr (.inl ⟨rfl, h, by simp [readCram, hr, h]⟩)
    · exact .inr (.inr ⟨rfl, by omega, by simp [readCram, hr, h]⟩)

/-- A Persistent RAM write is discarded, or stores the byte, or records the decode failure and stores nothing. -/
theorem writeCram_cases (a : Addr) (d : Byte) (s : State) :
    (ramReachable s.cfg s.bank = false ∧ writeCram a d s = complete s) ∨
      (ramReachable s.cfg s.bank = true ∧ ramOffset s.cfg s.bank a < s.cfg.ramSize ∧
        writeCram a d s = complete (setByte s .cram (ramOffset s.cfg s.bank a) d)) ∨
      (ramReachable s.cfg s.bank = true ∧ s.cfg.ramSize ≤ ramOffset s.cfg s.bank a ∧
        writeCram a d s = raiseFault (.addressDecodeFailure a (ramOffset s.cfg s.bank a) .cram) s) := by
  cases hr : ramReachable s.cfg s.bank
  · exact .inl ⟨rfl, by simp [writeCram, hr]⟩
  · by_cases h : ramOffset s.cfg s.bank a < s.cfg.ramSize
    · exact .inr (.inl ⟨rfl, h, by simp [writeCram, hr, h]⟩)
    · exact .inr (.inr ⟨rfl, by omega, by simp [writeCram, hr, h]⟩)

/-! ### What the accesses leave alone -/

@[simp] theorem readSegment_cfg (g : Segment) (o : Nat) (s : State) : (readSegment g o s).cfg = s.cfg := by
  rcases readSegment_cases g o s with ⟨_, h⟩ | ⟨_, h⟩ <;> simp [h]
@[simp] theorem readSegment_bank (g : Segment) (o : Nat) (s : State) : (readSegment g o s).bank = s.bank := by
  rcases readSegment_cases g o s with ⟨_, h⟩ | ⟨_, h⟩ <;> simp [h]
@[simp] theorem readSegment_bootOverlayActive (g : Segment) (o : Nat) (s : State) : (readSegment g o s).bootOverlayActive = s.bootOverlayActive := by
  rcases readSegment_cases g o s with ⟨_, h⟩ | ⟨_, h⟩ <;> simp [h]
@[simp] theorem readSegment_joypSel (g : Segment) (o : Nat) (s : State) : (readSegment g o s).joypSel = s.joypSel := by
  rcases readSegment_cases g o s with ⟨_, h⟩ | ⟨_, h⟩ <;> simp [h]
@[simp] theorem readSegment_btn (g : Segment) (o : Nat) (s : State) : (readSegment g o s).btn = s.btn := by
  rcases readSegment_cases g o s with ⟨_, h⟩ | ⟨_, h⟩ <;> simp [h]
@[simp] theorem readSegment_ifReg (g : Segment) (o : Nat) (s : State) : (readSegment g o s).ifReg = s.ifReg := by
  rcases readSegment_cases g o s with ⟨_, h⟩ | ⟨_, h⟩ <;> simp [h]
@[simp] theorem readSegment_ieReg (g : Segment) (o : Nat) (s : State) : (readSegment g o s).ieReg = s.ieReg := by
  rcases readSegment_cases g o s with ⟨_, h⟩ | ⟨_, h⟩ <;> simp [h]
@[simp] theorem readSegment_schedule (g : Segment) (o : Nat) (s : State) : (readSegment g o s).schedule = s.schedule := by
  rcases readSegment_cases g o s with ⟨_, h⟩ | ⟨_, h⟩ <;> simp [h]
@[simp] theorem readSegment_draws (g : Segment) (o : Nat) (s : State) : (readSegment g o s).draws = s.draws := by
  rcases readSegment_cases g o s with ⟨_, h⟩ | ⟨_, h⟩ <;> simp [h]

@[simp] theorem writeSegment_cfg (g : Segment) (o : Nat) (v : Byte) (s : State) : (writeSegment g o v s).cfg = s.cfg := by
  rcases writeSegment_cases g o v s with ⟨_, h⟩ | ⟨_, h⟩ <;> simp [h]
@[simp] theorem writeSegment_bank (g : Segment) (o : Nat) (v : Byte) (s : State) : (writeSegment g o v s).bank = s.bank := by
  rcases writeSegment_cases g o v s with ⟨_, h⟩ | ⟨_, h⟩ <;> simp [h]
@[simp] theorem writeSegment_bootOverlayActive (g : Segment) (o : Nat) (v : Byte) (s : State) : (writeSegment g o v s).bootOverlayActive = s.bootOverlayActive := by
  rcases writeSegment_cases g o v s with ⟨_, h⟩ | ⟨_, h⟩ <;> simp [h]
@[simp] theorem writeSegment_joypSel (g : Segment) (o : Nat) (v : Byte) (s : State) : (writeSegment g o v s).joypSel = s.joypSel := by
  rcases writeSegment_cases g o v s with ⟨_, h⟩ | ⟨_, h⟩ <;> simp [h]
@[simp] theorem writeSegment_btn (g : Segment) (o : Nat) (v : Byte) (s : State) : (writeSegment g o v s).btn = s.btn := by
  rcases writeSegment_cases g o v s with ⟨_, h⟩ | ⟨_, h⟩ <;> simp [h]
@[simp] theorem writeSegment_ifReg (g : Segment) (o : Nat) (v : Byte) (s : State) : (writeSegment g o v s).ifReg = s.ifReg := by
  rcases writeSegment_cases g o v s with ⟨_, h⟩ | ⟨_, h⟩ <;> simp [h]
@[simp] theorem writeSegment_ieReg (g : Segment) (o : Nat) (v : Byte) (s : State) : (writeSegment g o v s).ieReg = s.ieReg := by
  rcases writeSegment_cases g o v s with ⟨_, h⟩ | ⟨_, h⟩ <;> simp [h]
@[simp] theorem writeSegment_schedule (g : Segment) (o : Nat) (v : Byte) (s : State) : (writeSegment g o v s).schedule = s.schedule := by
  rcases writeSegment_cases g o v s with ⟨_, h⟩ | ⟨_, h⟩ <;> simp [h]
@[simp] theorem writeSegment_draws (g : Segment) (o : Nat) (v : Byte) (s : State) : (writeSegment g o v s).draws = s.draws := by
  rcases writeSegment_cases g o v s with ⟨_, h⟩ | ⟨_, h⟩ <;> simp [h]

@[simp] theorem readRom_cfg (a : Addr) (s : State) : (readRom a s).cfg = s.cfg := by
  rcases readRom_cases a s with ⟨_, h⟩ | ⟨_, h⟩ <;> simp [h]
@[simp] theorem readRom_bank (a : Addr) (s : State) : (readRom a s).bank = s.bank := by
  rcases readRom_cases a s with ⟨_, h⟩ | ⟨_, h⟩ <;> simp [h]
@[simp] theorem readRom_bootOverlayActive (a : Addr) (s : State) : (readRom a s).bootOverlayActive = s.bootOverlayActive := by
  rcases readRom_cases a s with ⟨_, h⟩ | ⟨_, h⟩ <;> simp [h]
@[simp] theorem readRom_joypSel (a : Addr) (s : State) : (readRom a s).joypSel = s.joypSel := by
  rcases readRom_cases a s with ⟨_, h⟩ | ⟨_, h⟩ <;> simp [h]
@[simp] theorem readRom_btn (a : Addr) (s : State) : (readRom a s).btn = s.btn := by
  rcases readRom_cases a s with ⟨_, h⟩ | ⟨_, h⟩ <;> simp [h]
@[simp] theorem readRom_ifReg (a : Addr) (s : State) : (readRom a s).ifReg = s.ifReg := by
  rcases readRom_cases a s with ⟨_, h⟩ | ⟨_, h⟩ <;> simp [h]
@[simp] theorem readRom_ieReg (a : Addr) (s : State) : (readRom a s).ieReg = s.ieReg := by
  rcases readRom_cases a s with ⟨_, h⟩ | ⟨_, h⟩ <;> simp [h]
@[simp] theorem readRom_schedule (a : Addr) (s : State) : (readRom a s).schedule = s.schedule := by
  rcases readRom_cases a s with ⟨_, h⟩ | ⟨_, h⟩ <;> simp [h]
@[simp] theorem readRom_draws (a : Addr) (s : State) : (readRom a s).draws = s.draws := by
  rcases readRom_cases a s with ⟨_, h⟩ | ⟨_, h⟩ <;> simp [h]

@[simp] theorem readCram_cfg (a : Addr) (s : State) : (readCram a s).cfg = s.cfg := by
  rcases readCram_cases a s with ⟨_, h⟩ | ⟨_, _, h⟩ | ⟨_, _, h⟩ <;> simp [h]
@[simp] theorem readCram_bank (a : Addr) (s : State) : (readCram a s).bank = s.bank := by
  rcases readCram_cases a s with ⟨_, h⟩ | ⟨_, _, h⟩ | ⟨_, _, h⟩ <;> simp [h]
@[simp] theorem readCram_bootOverlayActive (a : Addr) (s : State) : (readCram a s).bootOverlayActive = s.bootOverlayActive := by
  rcases readCram_cases a s with ⟨_, h⟩ | ⟨_, _, h⟩ | ⟨_, _, h⟩ <;> simp [h]
@[simp] theorem readCram_joypSel (a : Addr) (s : State) : (readCram a s).joypSel = s.joypSel := by
  rcases readCram_cases a s with ⟨_, h⟩ | ⟨_, _, h⟩ | ⟨_, _, h⟩ <;> simp [h]
@[simp] theorem readCram_btn (a : Addr) (s : State) : (readCram a s).btn = s.btn := by
  rcases readCram_cases a s with ⟨_, h⟩ | ⟨_, _, h⟩ | ⟨_, _, h⟩ <;> simp [h]
@[simp] theorem readCram_ifReg (a : Addr) (s : State) : (readCram a s).ifReg = s.ifReg := by
  rcases readCram_cases a s with ⟨_, h⟩ | ⟨_, _, h⟩ | ⟨_, _, h⟩ <;> simp [h]
@[simp] theorem readCram_ieReg (a : Addr) (s : State) : (readCram a s).ieReg = s.ieReg := by
  rcases readCram_cases a s with ⟨_, h⟩ | ⟨_, _, h⟩ | ⟨_, _, h⟩ <;> simp [h]
@[simp] theorem readCram_schedule (a : Addr) (s : State) : (readCram a s).schedule = s.schedule := by
  rcases readCram_cases a s with ⟨_, h⟩ | ⟨_, _, h⟩ | ⟨_, _, h⟩ <;> simp [h]
@[simp] theorem readCram_draws (a : Addr) (s : State) : (readCram a s).draws = s.draws := by
  rcases readCram_cases a s with ⟨_, h⟩ | ⟨_, _, h⟩ | ⟨_, _, h⟩ <;> simp [h]

@[simp] theorem writeCram_cfg (a : Addr) (d : Byte) (s : State) : (writeCram a d s).cfg = s.cfg := by
  rcases writeCram_cases a d s with ⟨_, h⟩ | ⟨_, _, h⟩ | ⟨_, _, h⟩ <;> simp [h]
@[simp] theorem writeCram_bank (a : Addr) (d : Byte) (s : State) : (writeCram a d s).bank = s.bank := by
  rcases writeCram_cases a d s with ⟨_, h⟩ | ⟨_, _, h⟩ | ⟨_, _, h⟩ <;> simp [h]
@[simp] theorem writeCram_bootOverlayActive (a : Addr) (d : Byte) (s : State) : (writeCram a d s).bootOverlayActive = s.bootOverlayActive := by
  rcases writeCram_cases a d s with ⟨_, h⟩ | ⟨_, _, h⟩ | ⟨_, _, h⟩ <;> simp [h]
@[simp] theorem writeCram_joypSel (a : Addr) (d : Byte) (s : State) : (writeCram a d s).joypSel = s.joypSel := by
  rcases writeCram_cases a d s with ⟨_, h⟩ | ⟨_, _, h⟩ | ⟨_, _, h⟩ <;> simp [h]
@[simp] theorem writeCram_btn (a : Addr) (d : Byte) (s : State) : (writeCram a d s).btn = s.btn := by
  rcases writeCram_cases a d s with ⟨_, h⟩ | ⟨_, _, h⟩ | ⟨_, _, h⟩ <;> simp [h]
@[simp] theorem writeCram_ifReg (a : Addr) (d : Byte) (s : State) : (writeCram a d s).ifReg = s.ifReg := by
  rcases writeCram_cases a d s with ⟨_, h⟩ | ⟨_, _, h⟩ | ⟨_, _, h⟩ <;> simp [h]
@[simp] theorem writeCram_ieReg (a : Addr) (d : Byte) (s : State) : (writeCram a d s).ieReg = s.ieReg := by
  rcases writeCram_cases a d s with ⟨_, h⟩ | ⟨_, _, h⟩ | ⟨_, _, h⟩ <;> simp [h]
@[simp] theorem writeCram_schedule (a : Addr) (d : Byte) (s : State) : (writeCram a d s).schedule = s.schedule := by
  rcases writeCram_cases a d s with ⟨_, h⟩ | ⟨_, _, h⟩ | ⟨_, _, h⟩ <;> simp [h]
@[simp] theorem writeCram_draws (a : Addr) (d : Byte) (s : State) : (writeCram a d s).draws = s.draws := by
  rcases writeCram_cases a d s with ⟨_, h⟩ | ⟨_, _, h⟩ | ⟨_, _, h⟩ <;> simp [h]

@[simp] theorem readBoot_cfg (a : Addr) (s : State) : (readBoot a s).cfg = s.cfg := rfl
@[simp] theorem readBoot_bank (a : Addr) (s : State) : (readBoot a s).bank = s.bank := rfl
@[simp] theorem readBoot_bootOverlayActive (a : Addr) (s : State) : (readBoot a s).bootOverlayActive = s.bootOverlayActive := rfl
@[simp] theorem readBoot_joypSel (a : Addr) (s : State) : (readBoot a s).joypSel = s.joypSel := rfl
@[simp] theorem readBoot_btn (a : Addr) (s : State) : (readBoot a s).btn = s.btn := rfl
@[simp] theorem readBoot_ifReg (a : Addr) (s : State) : (readBoot a s).ifReg = s.ifReg := rfl
@[simp] theorem readBoot_ieReg (a : Addr) (s : State) : (readBoot a s).ieReg = s.ieReg := rfl
@[simp] theorem readBoot_schedule (a : Addr) (s : State) : (readBoot a s).schedule = s.schedule := rfl
@[simp] theorem readBoot_draws (a : Addr) (s : State) : (readBoot a s).draws = s.draws := rfl

@[simp] theorem byteAt_readSegment (g : Segment) (o : Nat) (s : State) (r : Ram) (q : Nat) :
    byteAt (readSegment g o s) r q = byteAt s r q := by
  rcases readSegment_cases g o s with ⟨_, h⟩ | ⟨_, h⟩ <;> simp [h]

@[simp] theorem cellsOf_readSegment (g : Segment) (o : Nat) (s : State) (r : Ram) :
    cellsOf (readSegment g o s) r = cellsOf s r := by
  rcases readSegment_cases g o s with ⟨_, h⟩ | ⟨_, h⟩ <;> simp [h]

@[simp] theorem byteAt_readRom (a : Addr) (s : State) (r : Ram) (q : Nat) :
    byteAt (readRom a s) r q = byteAt s r q := by
  rcases readRom_cases a s with ⟨_, h⟩ | ⟨_, h⟩ <;> simp [h]

@[simp] theorem cellsOf_readRom (a : Addr) (s : State) (r : Ram) :
    cellsOf (readRom a s) r = cellsOf s r := by
  rcases readRom_cases a s with ⟨_, h⟩ | ⟨_, h⟩ <;> simp [h]

@[simp] theorem byteAt_readCram (a : Addr) (s : State) (r : Ram) (q : Nat) :
    byteAt (readCram a s) r q = byteAt s r q := by
  rcases readCram_cases a s with ⟨_, h⟩ | ⟨_, _, h⟩ | ⟨_, _, h⟩ <;> simp [h]

@[simp] theorem cellsOf_readCram (a : Addr) (s : State) (r : Ram) :
    cellsOf (readCram a s) r = cellsOf s r := by
  rcases readCram_cases a s with ⟨_, h⟩ | ⟨_, _, h⟩ | ⟨_, _, h⟩ <;> simp [h]

@[simp] theorem byteAt_readBoot (a : Addr) (s : State) (r : Ram) (q : Nat) :
    byteAt (readBoot a s) r q = byteAt s r q := by simp [readBoot]

@[simp] theorem cellsOf_readBoot (a : Addr) (s : State) (r : Ram) :
    cellsOf (readBoot a s) r = cellsOf s r := by simp [readBoot]

/-- A byte that a segment write changed is the byte it stored to. -/
theorem byteAt_writeSegment_ne {g : Segment} {o : Nat} {v : Byte} {s : State} {r : Ram} {q : Nat}
    (h : byteAt (writeSegment g o v s) r q ≠ byteAt s r q) : r = .seg g ∧ q = o := by
  by_contra hc
  apply h
  rcases writeSegment_cases g o v s with ⟨_, e⟩ | ⟨_, e⟩
  · rw [e, byteAt_complete, byteAt_setByte_other]
    intro he
    exact hc ⟨(Prod.mk.inj he).1, (Prod.mk.inj he).2⟩
  · simp [e]

/-- A byte that a Persistent RAM write changed is in the Persistent RAM, and the RAM was reachable. -/
theorem byteAt_writeCram_ne {a : Addr} {d : Byte} {s : State} {r : Ram} {q : Nat}
    (h : byteAt (writeCram a d s) r q ≠ byteAt s r q) : r = .cram ∧ ramReachable s.cfg s.bank = true := by
  rcases writeCram_cases a d s with ⟨_, e⟩ | ⟨hr, _, e⟩ | ⟨_, _, e⟩
  · exact absurd (by simp [e]) h
  · refine ⟨?_, hr⟩
    by_contra hc
    apply h
    rw [e, byteAt_complete, byteAt_setByte_other]
    intro he
    exact hc (Prod.mk.inj he).1
  · exact absurd (by simp [e]) h

/-- The save-RAM read-out has `RAM_SIZE` bytes. -/
@[simp] theorem length_saveRam (s : State) : (saveRam s).length = s.cfg.ramSize := by simp [saveRam]

/-- Everything a session start from a save can do. -/
theorem sessionStartFromSave_cases (c : Cfg) (save : List Byte) :
    (save.length = c.ramSize ∧ sessionStartFromSave c save = sessionStart (withSaveRam c save)) ∨
      (save.length ≠ c.ramSize ∧ sessionStartFromSave c save = .refused .malformedConfig) := by
  by_cases h : save.length = c.ramSize
  · exact .inl ⟨h, if_pos h⟩
  · exact .inr ⟨h, if_neg h⟩

/-! ### The controller's write contract -/

/-- Under `MBC = None` every control write keeps the Bank Register Set (R71). -/
theorem apply_none {c : Cfg} (h : c.mbc = .none) (d : Byte) (r : BankRegs) :
    applyRamEnable c d r = r ∧ applyRomBank c d r = r ∧ applySecondary c d r = r ∧ applyMode c d r = r := by
  simp [applyRamEnable, applyRomBank, applySecondary, applyMode, isType1, h]

/-! ### Buttons -/

@[simp] theorem getButton_putButton_same (btn : Buttons) (n : Button) (p : Bool) :
    getButton (putButton btn n p) n = p := by cases n <;> rfl

theorem getButton_putButton_other (btn : Buttons) {n k : Button} (p : Bool) (h : k ≠ n) :
    getButton (putButton btn n p) k = getButton btn k := by
  cases n <;> cases k <;> first | exact absurd rfl h | rfl

end Sys2Proof.Machine
end

