-- ==== Sys2Proof/Laws/PerInstr.lean ====
section
/-! SUPPORT. Laws per instruction. `FixedBits`: the word the encoder makes of a well-formed operation holds the bits that
its row of spec/opcode_table.json fixes ("fixed": bit hi down to bit lo, with its value), the row's `match` and `mask`. -/

namespace Sys2Proof

/-- The number of a transaction's word. -/
def Transaction.word : Transaction → Nat
  | .bus w => w.toNat
  | .btn w => w.toNat
  | .view w => w.toNat

/-- The row's fixed bits: the lowest of them, and their value. They reach up to the format's top bit. SET_BUTTON fixes
none. -/
def Instr.fixedBits : Instr → Nat × Nat
  | .rdBoot _ => (16, 0)
  | .rdRom0 _ => (22, 0)
  | .rdRomX _ => (22, 1)
  | .rdVram _ => (21, 4)
  | .rdCram _ => (21, 5)
  | .rdWram _ => (21, 6)
  | .rdEcho _ => (21, 7)
  | .rdOam _ => (16, 254)
  | .rdUnusable _ => (15, 509)
  | .rdJoyp => (8, 65280)
  | .rdIf => (8, 65295)
  | .rdPpureg _ => (12, 4084)
  | .rdBootflag => (8, 65360)
  | .rdHram _ => (15, 511)
  | .rdIe => (8, 65535)
  | .rdIoUnmapped _ => (15, 510)
  | .wrRamen _ _ => (21, 8)
  | .wrRombank _ _ => (21, 9)
  | .wrSecondary _ _ => (21, 10)
  | .wrMode _ _ => (21, 11)
  | .wrVram _ _ => (21, 12)
  | .wrCram _ _ => (21, 13)
  | .wrWram _ _ => (21, 14)
  | .wrEcho _ _ => (21, 15)
  | .wrOam _ _ => (16, 510)
  | .wrUnusable _ _ => (15, 1021)
  | .wrJoyp _ => (8, 130816)
  | .wrIf _ => (8, 130831)
  | .wrPpureg _ _ => (12, 8180)
  | .wrBootflag _ => (8, 130896)
  | .wrHram _ _ => (15, 1023)
  | .wrIe _ => (8, 131071)
  | .wrIoUnmapped _ _ => (15, 1022)
  | .setButton _ _ => (4, 0)
  | .viewVram _ => (13, 0)
  | .viewOam _ => (13, 1)

theorem word_readByte (a : Addr) : (readByte a).word = a.toNat * 2 ^ 8 := by
  simp only [readByte, Transaction.word, toNat_busWord, Bool.toNat_false]
  simp

theorem word_writeByte (a : Addr) (d : Byte) : (writeByte a d).word = 2 ^ 24 + a.toNat * 2 ^ 8 + d.toNat := by
  simp only [writeByte, Transaction.word, toNat_busWord, Bool.toNat_true]
  simp

/-- The fixed bits of a `readByte` word, from a bound on its address. -/
theorem fixed_readByte {a : Addr} {k v : Nat} (h : a.toNat * 2 ^ 8 / 2 ^ k = v) : (readByte a).word / 2 ^ k = v := by
  rw [word_readByte, h]

/-- The fixed bits of a `writeByte` word, from a bound on its address and data. -/
theorem fixed_writeByte {a : Addr} {d : Byte} {k v : Nat}
    (h : d.toNat < 256 → (2 ^ 24 + a.toNat * 2 ^ 8 + d.toNat) / 2 ^ k = v) : (writeByte a d).word / 2 ^ k = v := by
  rw [word_writeByte, h d.isLt]

namespace Laws.FixedBits

def Statement (i : Instr) : Prop := i.wf = true → (encode i).word / 2 ^ i.fixedBits.1 = i.fixedBits.2

theorem rdBoot (a : Addr) : Statement (.rdBoot a) := by
  intro h
  rw [Instr.wf, inRange_iff] at h
  refine fixed_readByte ?_
  simp only [Instr.fixedBits]
  omega

theorem rdRom0 (a : Addr) : Statement (.rdRom0 a) := by
  intro h
  rw [Instr.wf, inRange_iff] at h
  refine fixed_readByte ?_
  simp only [Instr.fixedBits]
  omega

theorem rdRomX (a : Addr) : Statement (.rdRomX a) := by
  intro h
  rw [Instr.wf, inRange_iff] at h
  refine fixed_readByte ?_
  simp only [Instr.fixedBits]
  omega

theorem rdVram (a : Addr) : Statement (.rdVram a) := by
  intro h
  rw [Instr.wf, inRange_iff] at h
  refine fixed_readByte ?_
  simp only [Instr.fixedBits]
  omega

theorem rdCram (a : Addr) : Statement (.rdCram a) := by
  intro h
  rw [Instr.wf, inRange_iff] at h
  refine fixed_readByte ?_
  simp only [Instr.fixedBits]
  omega

theorem rdWram (a : Addr) : Statement (.rdWram a) := by
  intro h
  rw [Instr.wf, inRange_iff] at h
  refine fixed_readByte ?_
  simp only [Instr.fixedBits]
  omega

theorem rdEcho (a : Addr) : Statement (.rdEcho a) := by
  intro h
  rw [Instr.wf, inRange_iff] at h
  refine fixed_readByte ?_
  simp only [Instr.fixedBits]
  omega

theorem rdOam (a : Addr) : Statement (.rdOam a) := by
  intro h
  rw [Instr.wf, inRange_iff] at h
  refine fixed_readByte ?_
  simp only [Instr.fixedBits]
  omega

theorem rdUnusable (a : Addr) : Statement (.rdUnusable a) := by
  intro h
  rw [Instr.wf, inRange_iff] at h
  refine fixed_readByte ?_
  simp only [Instr.fixedBits]
  omega

theorem rdJoyp : Statement .rdJoyp := fun _ => fixed_readByte (by decide)

theorem rdIf : Statement .rdIf := fun _ => fixed_readByte (by decide)

theorem rdPpureg (a : Addr) : Statement (.rdPpureg a) := by
  intro h
  rw [Instr.wf, inRange_iff] at h
  refine fixed_readByte ?_
  simp only [Instr.fixedBits]
  omega

theorem rdBootflag : Statement .rdBootflag := fun _ => fixed_readByte (by decide)

theorem rdHram (a : Addr) : Statement (.rdHram a) := by
  intro h
  rw [Instr.wf, inRange_iff] at h
  refine fixed_readByte ?_
  simp only [Instr.fixedBits]
  omega

theorem rdIe : Statement .rdIe := fun _ => fixed_readByte (by decide)

theorem rdIoUnmapped (a : Addr) : Statement (.rdIoUnmapped a) := by
  intro h
  rw [Instr.wf, isUnmappedIo_iff] at h
  refine fixed_readByte ?_
  simp only [Instr.fixedBits]
  omega

theorem wrRamen (a : Addr) (d : Byte) : Statement (.wrRamen a d) := by
  intro h
  rw [Instr.wf, inRange_iff] at h
  refine fixed_writeByte fun hd => ?_
  simp only [Instr.fixedBits]
  omega

theorem wrRombank (a : Addr) (d : Byte) : Statement (.wrRombank a d) := by
  intro h
  rw [Instr.wf, inRange_iff] at h
  refine fixed_writeByte fun hd => ?_
  simp only [Instr.fixedBits]
  omega

theorem wrSecondary (a : Addr) (d : Byte) : Statement (.wrSecondary a d) := by
  intro h
  rw [Instr.wf, inRange_iff] at h
  refine fixed_writeByte fun hd => ?_
  simp only [Instr.fixedBits]
  omega

theorem wrMode (a : Addr) (d : Byte) : Statement (.wrMode a d) := by
  intro h
  rw [Instr.wf, inRange_iff] at h
  refine fixed_writeByte fun hd => ?_
  simp only [Instr.fixedBits]
  omega

theorem wrVram (a : Addr) (d : Byte) : Statement (.wrVram a d) := by
  intro h
  rw [Instr.wf, inRange_iff] at h
  refine fixed_writeByte fun hd => ?_
  simp only [Instr.fixedBits]
  omega

theorem wrCram (a : Addr) (d : Byte) : Statement (.wrCram a d) := by
  intro h
  rw [Instr.wf, inRange_iff] at h
  refine fixed_writeByte fun hd => ?_
  simp only [Instr.fixedBits]
  omega

theorem wrWram (a : Addr) (d : Byte) : Statement (.wrWram a d) := by
  intro h
  rw [Instr.wf, inRange_iff] at h
  refine fixed_writeByte fun hd => ?_
  simp only [Instr.fixedBits]
  omega

theorem wrEcho (a : Addr) (d : Byte) : Statement (.wrEcho a d) := by
  intro h
  rw [Instr.wf, inRange_iff] at h
  refine fixed_writeByte fun hd => ?_
  simp only [Instr.fixedBits]
  omega

theorem wrOam (a : Addr) (d : Byte) : Statement (.wrOam a d) := by
  intro h
  rw [Instr.wf, inRange_iff] at h
  refine fixed_writeByte fun hd => ?_
  simp only [Instr.fixedBits]
  omega

theorem wrUnusable (a : Addr) (d : Byte) : Statement (.wrUnusable a d) := by
  intro h
  rw [Instr.wf, inRange_iff] at h
  refine fixed_writeByte fun hd => ?_
  simp only [Instr.fixedBits]
  omega

theorem wrJoyp (d : Byte) : Statement (.wrJoyp d) := by
  intro _
  refine fixed_writeByte fun hd => ?_
  simp only [Instr.fixedBits, BitVec.reduceToNat]
  omega

theorem wrIf (d : Byte) : Statement (.wrIf d) := by
  intro _
  refine fixed_writeByte fun hd => ?_
  simp only [Instr.fixedBits, BitVec.reduceToNat]
  omega

theorem wrPpureg (a : Addr) (d : Byte) : Statement (.wrPpureg a d) := by
  intro h
  rw [Instr.wf, inRange_iff] at h
  refine fixed_writeByte fun hd => ?_
  simp only [Instr.fixedBits]
  omega

theorem wrBootflag (d : Byte) : Statement (.wrBootflag d) := by
  intro _
  refine fixed_writeByte fun hd => ?_
  simp only [Instr.fixedBits, BitVec.reduceToNat]
  omega

theorem wrHram (a : Addr) (d : Byte) : Statement (.wrHram a d) := by
  intro h
  rw [Instr.wf, inRange_iff] at h
  refine fixed_writeByte fun hd => ?_
  simp only [Instr.fixedBits]
  omega

theorem wrIe (d : Byte) : Statement (.wrIe d) := by
  intro _
  refine fixed_writeByte fun hd => ?_
  simp only [Instr.fixedBits, BitVec.reduceToNat]
  omega

theorem wrIoUnmapped (a : Addr) (d : Byte) : Statement (.wrIoUnmapped a d) := by
  intro h
  rw [Instr.wf, isUnmappedIo_iff] at h
  refine fixed_writeByte fun hd => ?_
  simp only [Instr.fixedBits]
  omega

theorem setButton (button : Button) (p : Bool) : Statement (.setButton button p) := by
  intro _
  cases button <;> cases p <;> decide

theorem viewVram (o : BitVec 13) : Statement (.viewVram o) := by
  intro _
  have := o.isLt
  simp only [encode, Transaction.word, Instr.fixedBits, toNat_viewWord, Bool.toNat_false]
  omega

theorem viewOam (o : BitVec 13) : Statement (.viewOam o) := by
  intro _
  have := o.isLt
  simp only [encode, Transaction.word, Instr.fixedBits, toNat_viewWord, Bool.toNat_true]
  omega

end Laws.FixedBits

end Sys2Proof
end

