-- ==== Sys2Proof/Laws/Step.lean ====
section
/-! SUPPORT. What taking a transaction leaves alone, and everything a step can do. -/

namespace Sys2Proof.Machine

/-! ### Taking the next transaction -/

@[simp] theorem takeTransaction_cfg (s : State) : (takeTransaction s).2.cfg = s.cfg := by
  unfold takeTransaction; split <;> rfl

@[simp] theorem takeTransaction_bank (s : State) : (takeTransaction s).2.bank = s.bank := by
  unfold takeTransaction; split <;> rfl

@[simp] theorem takeTransaction_cram (s : State) : (takeTransaction s).2.cram = s.cram := by
  unfold takeTransaction; split <;> rfl

@[simp] theorem takeTransaction_vram (s : State) : (takeTransaction s).2.vram = s.vram := by
  unfold takeTransaction; split <;> rfl

@[simp] theorem takeTransaction_wram (s : State) : (takeTransaction s).2.wram = s.wram := by
  unfold takeTransaction; split <;> rfl

@[simp] theorem takeTransaction_oam (s : State) : (takeTransaction s).2.oam = s.oam := by
  unfold takeTransaction; split <;> rfl

@[simp] theorem takeTransaction_hram (s : State) : (takeTransaction s).2.hram = s.hram := by
  unfold takeTransaction; split <;> rfl

@[simp] theorem takeTransaction_ppureg (s : State) : (takeTransaction s).2.ppureg = s.ppureg := by
  unfold takeTransaction; split <;> rfl

@[simp] theorem takeTransaction_bootOverlayActive (s : State) : (takeTransaction s).2.bootOverlayActive = s.bootOverlayActive := by
  unfold takeTransaction; split <;> rfl

@[simp] theorem takeTransaction_joypSel (s : State) : (takeTransaction s).2.joypSel = s.joypSel := by
  unfold takeTransaction; split <;> rfl

@[simp] theorem takeTransaction_btn (s : State) : (takeTransaction s).2.btn = s.btn := by
  unfold takeTransaction; split <;> rfl

@[simp] theorem takeTransaction_ifReg (s : State) : (takeTransaction s).2.ifReg = s.ifReg := by
  unfold takeTransaction; split <;> rfl

@[simp] theorem takeTransaction_ieReg (s : State) : (takeTransaction s).2.ieReg = s.ieReg := by
  unfold takeTransaction; split <;> rfl

@[simp] theorem takeTransaction_fault (s : State) : (takeTransaction s).2.fault = s.fault := by
  unfold takeTransaction; split <;> rfl

@[simp] theorem takeTransaction_response (s : State) : (takeTransaction s).2.response = s.response := by
  unfold takeTransaction; split <;> rfl

@[simp] theorem byteAt_takeTransaction (s : State) (r : Ram) (o : Nat) :
    byteAt (takeTransaction s).2 r o = byteAt s r o := by
  rcases r with _ | g
  · simp [byteAt, cellsOf]
  · cases g <;> simp [byteAt, cellsOf]

@[simp] theorem cellsOf_takeTransaction (s : State) (r : Ram) :
    cellsOf (takeTransaction s).2 r = cellsOf s r := by
  rcases r with _ | g
  · simp [cellsOf]
  · cases g <;> simp [cellsOf]

/-- Everything a step can do: the session is not halted, and either no agent issues a transaction, or the one taken is
decoded by the overlay state and executed. -/
theorem step_next {s t : State} (h : step s = .next t) :
    s.fault = none ∧
      (((takeTransaction s).1 = none ∧ t = idle (takeTransaction s).2) ∨
        ∃ x, (takeTransaction s).1 = some x ∧
          exec (decode s.bootOverlayActive x) (takeTransaction s).2 = .next t) := by
  unfold step runNext at h
  cases hf : s.fault with
  | some f => simp [hf] at h
  | none =>
    simp only [hf] at h
    refine ⟨rfl, ?_⟩
    cases hx : (takeTransaction s).1 with
    | none =>
      rw [hx] at h
      simp only [runTaken] at h
      cases h
      exact .inl ⟨rfl, rfl⟩
    | some x =>
      rw [hx] at h
      simp only [runTaken, takeTransaction_bootOverlayActive] at h
      exact .inr ⟨x, rfl, h⟩

/-! ### Bytes under a register update -/

@[simp] theorem byteAt_with_bank (s : State) (x : BankRegs) (r : Ram) (o : Nat) :
    byteAt { s with bank := x } r o = byteAt s r o := by
  rcases r with _ | g
  · rfl
  · cases g <;> rfl

@[simp] theorem cellsOf_with_bank (s : State) (x : BankRegs) (r : Ram) :
    cellsOf { s with bank := x } r = cellsOf s r := by
  rcases r with _ | g
  · rfl
  · cases g <;> rfl

@[simp] theorem byteAt_with_bootOverlayActive (s : State) (x : Bool) (r : Ram) (o : Nat) :
    byteAt { s with bootOverlayActive := x } r o = byteAt s r o := by
  rcases r with _ | g
  · rfl
  · cases g <;> rfl

@[simp] theorem cellsOf_with_bootOverlayActive (s : State) (x : Bool) (r : Ram) :
    cellsOf { s with bootOverlayActive := x } r = cellsOf s r := by
  rcases r with _ | g
  · rfl
  · cases g <;> rfl

@[simp] theorem byteAt_with_joypSel (s : State) (x : BitVec 2) (r : Ram) (o : Nat) :
    byteAt { s with joypSel := x } r o = byteAt s r o := by
  rcases r with _ | g
  · rfl
  · cases g <;> rfl

@[simp] theorem cellsOf_with_joypSel (s : State) (x : BitVec 2) (r : Ram) :
    cellsOf { s with joypSel := x } r = cellsOf s r := by
  rcases r with _ | g
  · rfl
  · cases g <;> rfl

@[simp] theorem byteAt_with_btn (s : State) (x : Buttons) (r : Ram) (o : Nat) :
    byteAt { s with btn := x } r o = byteAt s r o := by
  rcases r with _ | g
  · rfl
  · cases g <;> rfl

@[simp] theorem cellsOf_with_btn (s : State) (x : Buttons) (r : Ram) :
    cellsOf { s with btn := x } r = cellsOf s r := by
  rcases r with _ | g
  · rfl
  · cases g <;> rfl

@[simp] theorem byteAt_with_ifReg (s : State) (x : BitVec 5) (r : Ram) (o : Nat) :
    byteAt { s with ifReg := x } r o = byteAt s r o := by
  rcases r with _ | g
  · rfl
  · cases g <;> rfl

@[simp] theorem cellsOf_with_ifReg (s : State) (x : BitVec 5) (r : Ram) :
    cellsOf { s with ifReg := x } r = cellsOf s r := by
  rcases r with _ | g
  · rfl
  · cases g <;> rfl

@[simp] theorem byteAt_with_ieReg (s : State) (x : BitVec 5) (r : Ram) (o : Nat) :
    byteAt { s with ieReg := x } r o = byteAt s r o := by
  rcases r with _ | g
  · rfl
  · cases g <;> rfl

@[simp] theorem cellsOf_with_ieReg (s : State) (x : BitVec 5) (r : Ram) :
    cellsOf { s with ieReg := x } r = cellsOf s r := by
  rcases r with _ | g
  · rfl
  · cases g <;> rfl

end Sys2Proof.Machine
end

