-- ==== Sys2Proof/Tests/Slice0.lean ====
section
/-! SUPPORT. The model's own tests. Expected values come from 95_test_vectors.md (the vector's id stands in the docstring)
or from a rule of the spec named there; a `witness_` theorem shows a state and operands that meet a statement's premises. -/

open Sys2Proof Sys2Proof.Machine Sys2Proof.Tables

namespace Sys2Proof.Tests

/-! ### Test configurations (95_test_vectors.md section 0); of a ROM pattern, the listed bytes are those the tests read -/

def cfgA : Cfg where
  mbc := .type1
  rom := [(0x4000, 1), (0x7FFF, 1), (0x14000, 5), (0x17FFF, 5)]
  romSize := 0x80000
  ramSize := 0x2000
  bootPresent := true
  boot := [(0x00, 0x31), (0x50, 0x81), (0xFF, 0x30)]
  bootLen := 256
  cramInit := some []
  bankBound := .modulo

def cfgB : Cfg where
  mbc := .type1
  rom := [(0x4000, 1), (0x7FFF, 1), (0x8000, 2), (0x88000, 0x22), (0xFC000, 0x3F)]
  romSize := 0x100000
  ramSize := 0x8000
  bootPresent := false
  boot := []
  bootLen := 0
  cramInit := some []
  bankBound := .modulo

def cfgC : Cfg where
  mbc := .type1
  rom := [(0x1C000, 7), (0x5C000, 0x17)]
  romSize := 0x60000
  ramSize := 0
  bootPresent := false
  boot := []
  bootLen := 0
  cramInit := some []
  bankBound := .modulo

def cfgD : Cfg where
  mbc := .none
  rom := [(0x4000, 1)]
  romSize := 0x8000
  ramSize := 0x800
  bootPresent := true
  boot := [(0x00, 0xC0), (0x0F, 0xCF)]
  bootLen := 16
  cramInit := some []
  bankBound := .modulo

def cfgE : Cfg where
  mbc := .none
  rom := [(0x50, 0x50), (0x123, 0x23)]
  romSize := 0x4000
  ramSize := 0
  bootPresent := false
  boot := []
  bootLen := 0
  cramInit := some []
  bankBound := .modulo

def cfgF : Cfg := { cfgB with rom := [(0x1FC000, 0x7F), (0x1FFFFF, 0x7F)], romSize := 0x200000 }
def cfgG : Cfg := { cfgB with rom := [(0xC000, 3)], ramSize := 0x2000 }
def cfgH : Cfg := { cfgC with rom := [(0x4000, 1)], romSize := 0x8000 }

/-- The same under the other policy. -/
def clamped (c : Cfg) : Cfg := { c with bankBound := .clamp }

/-- A configuration of no session: the ROM size is no multiple of 16 KiB (R7). -/
def cfgBad : Cfg := { cfgA with romSize := 0x80001 }

/-- A configuration of no session whose sizes lie under what the translations reach, so that R77's guard answers. -/
def cfgShort : Cfg := { cfgA with romSize := 1, ramSize := 1 }

/-- The session-start state with a few registers set. -/
def sA : State := State.ofCfg cfgA
def sB : State := State.ofCfg cfgB
def sD : State := State.ofCfg cfgD
def sE : State := State.ofCfg cfgE
def sG : State := State.ofCfg cfgG
def withBank (s : State) (b : BankRegs) : State := { s with bank := b }
def ramOn (s : State) : State := { s with bank := { s.bank with ramEnabled := true } }
def plan (s : State) (ts : List Transaction) : State := { s with schedule := ts }
def viewFault : BusFault := .segmentBoundsViolation .oam 0xA0
def sHalted : State := { sA with fault := some viewFault }

/-- What a step left, if it left a state. -/
def after (o : Host.Outcome State Fault Refusal) : Option State :=
  match o with
  | .next t => some t
  | .fault _ => none
  | .refused _ => none

/-- The read data of a transaction: the outer `none` is no next state, the inner one no data. -/
def data (i : Instr) (s : State) : Option (Option Byte) := (after (exec i s)).map State.response

/-- Byte `off` of array `r` after a transaction. -/
def byteAfter (i : Instr) (s : State) (r : Ram) (off : Nat) : Option Byte :=
  (after (exec i s)).map fun t => byteAt t r off

def bankAfter (i : Instr) (s : State) : Option BankRegs := (after (exec i s)).map State.bank
def faultAfter (i : Instr) (s : State) : Option (Option BusFault) := (after (exec i s)).map State.fault

/-! ### WellFormed: an ill-formed term for each range check -/

theorem test_wf_refuses_reads :
    (Instr.rdBoot 0x0100).wf = false ∧ (Instr.rdRom0 0x4000).wf = false ∧ (Instr.rdRomX 0x3FFF).wf = false ∧
    (Instr.rdRomX 0x8000).wf = false ∧ (Instr.rdVram 0x7FFF).wf = false ∧ (Instr.rdVram 0xA000).wf = false ∧
    (Instr.rdCram 0x9FFF).wf = false ∧ (Instr.rdCram 0xC000).wf = false ∧ (Instr.rdWram 0xBFFF).wf = false ∧
    (Instr.rdWram 0xE000).wf = false ∧ (Instr.rdEcho 0xDFFF).wf = false ∧ (Instr.rdEcho 0xFE00).wf = false ∧
    (Instr.rdOam 0xFDFF).wf = false ∧ (Instr.rdOam 0xFEA0).wf = false ∧ (Instr.rdUnusable 0xFE9F).wf = false ∧
    (Instr.rdUnusable 0xFF00).wf = false ∧ (Instr.rdPpureg 0xFF3F).wf = false ∧ (Instr.rdPpureg 0xFF4C).wf = false ∧
    (Instr.rdHram 0xFF7F).wf = false ∧ (Instr.rdHram 0xFFFF).wf = false := by decide

theorem test_wf_refuses_writes :
    (Instr.wrRamen 0x2000 0).wf = false ∧ (Instr.wrRombank 0x1FFF 0).wf = false ∧ (Instr.wrRombank 0x4000 0).wf = false ∧
    (Instr.wrSecondary 0x3FFF 0).wf = false ∧ (Instr.wrSecondary 0x6000 0).wf = false ∧
    (Instr.wrMode 0x5FFF 0).wf = false ∧ (Instr.wrMode 0x8000 0).wf = false ∧ (Instr.wrVram 0x7FFF 0).wf = false ∧
    (Instr.wrVram 0xA000 0).wf = false ∧ (Instr.wrCram 0x9FFF 0).wf = false ∧ (Instr.wrCram 0xC000 0).wf = false ∧
    (Instr.wrWram 0xBFFF 0).wf = false ∧ (Instr.wrWram 0xE000 0).wf = false ∧ (Instr.wrEcho 0xDFFF 0).wf = false ∧
    (Instr.wrEcho 0xFE00 0).wf = false ∧ (Instr.wrOam 0xFDFF 0).wf = false ∧ (Instr.wrOam 0xFEA0 0).wf = false ∧
    (Instr.wrUnusable 0xFE9F 0).wf = false ∧ (Instr.wrUnusable 0xFF00 0).wf = false ∧
    (Instr.wrPpureg 0xFF3F 0).wf = false ∧ (Instr.wrPpureg 0xFF4C 0).wf = false ∧ (Instr.wrHram 0xFF7F 0).wf = false ∧
    (Instr.wrHram 0xFFFF 0).wf = false := by decide

/-- The four unmapped ranges and the registers between them. -/
theorem test_wf_refuses_unmapped :
    (Instr.rdIoUnmapped 0xFF00).wf = false ∧ (Instr.rdIoUnmapped 0xFF0F).wf = false ∧
    (Instr.rdIoUnmapped 0xFF40).wf = false ∧ (Instr.rdIoUnmapped 0xFF4B).wf = false ∧
    (Instr.rdIoUnmapped 0xFF50).wf = false ∧ (Instr.wrIoUnmapped 0xFF80 0).wf = false ∧
    (Instr.wrIoUnmapped 0xFFFF 0).wf = false ∧ (Instr.wrIoUnmapped 0xFEFF 0).wf = false := by decide

/-- The two state conditions of R65. -/
theorem test_selectable_refuses :
    (Instr.rdBoot 0x0000).selectable false = false ∧ (Instr.rdRom0 0x00FF).selectable true = false := by decide

/-- A configuration is refused for each constraint of R7 to R9. -/
theorem test_cfgWf_refuses :
    cfgWf { cfgA with romSize := 0 } = false ∧ cfgWf cfgBad = false ∧ cfgWf { cfgA with ramSize := 0x1000 } = false ∧
    cfgWf { cfgA with bootLen := 257 } = false ∧ cfgWf { cfgA with rom := [(0x80000, 1)] } = false ∧
    cfgWf { cfgA with boot := [(0x100, 1)] } = false ∧ cfgWf { cfgA with cramInit := some [(0x2000, 1)] } = false := by
  decide

/-! ### Decoding: one word for each constructor, written out from 30_encoding.md R59–R61 and the ranges of R42 -/

theorem test_decode_reads :
    decode true (.bus 0x0000000) = .rdBoot 0x0000 ∧ decode false (.bus 0x0000000) = .rdRom0 0x0000 ∧
    decode true (.bus 0x0010000) = .rdRom0 0x0100 ∧ decode true (.bus 0x07FFF00) = .rdRomX 0x7FFF ∧
    decode true (.bus 0x0800000) = .rdVram 0x8000 ∧ decode true (.bus 0x0A00100) = .rdCram 0xA001 ∧
    decode true (.bus 0x0C00500) = .rdWram 0xC005 ∧ decode true (.bus 0x0E00500) = .rdEcho 0xE005 ∧
    decode true (.bus 0x0FE9F00) = .rdOam 0xFE9F ∧ decode true (.bus 0x0FEA000) = .rdUnusable 0xFEA0 ∧
    decode true (.bus 0x0FF0000) = .rdJoyp ∧ decode true (.bus 0x0FF0F00) = .rdIf ∧
    decode true (.bus 0x0FF4600) = .rdPpureg 0xFF46 ∧ decode true (.bus 0x0FF5000) = .rdBootflag ∧
    decode true (.bus 0x0FF8000) = .rdHram 0xFF80 ∧ decode true (.bus 0x0FFFF00) = .rdIe ∧
    decode true (.bus 0x0FF0100) = .rdIoUnmapped 0xFF01 := by decide

theorem test_decode_writes :
    decode true (.bus 0x100000A) = .wrRamen 0x0000 0x0A ∧ decode true (.bus 0x1200005) = .wrRombank 0x2000 0x05 ∧
    decode true (.bus 0x1400003) = .wrSecondary 0x4000 0x03 ∧ decode true (.bus 0x1600001) = .wrMode 0x6000 0x01 ∧
    decode true (.bus 0x18000AA) = .wrVram 0x8000 0xAA ∧ decode true (.bus 0x1A00177) = .wrCram 0xA001 0x77 ∧
    decode true (.bus 0x1C00599) = .wrWram 0xC005 0x99 ∧ decode true (.bus 0x1FDFF4D) = .wrEcho 0xFDFF 0x4D ∧
    decode true (.bus 0x1FE9F11) = .wrOam 0xFE9F 0x11 ∧ decode true (.bus 0x1FEA012) = .wrUnusable 0xFEA0 0x12 ∧
    decode true (.bus 0x1FF0020) = .wrJoyp 0x20 ∧ decode true (.bus 0x1FF0F01) = .wrIf 0x01 ∧
    decode true (.bus 0x1FF46C0) = .wrPpureg 0xFF46 0xC0 ∧ decode true (.bus 0x1FF5001) = .wrBootflag 0x01 ∧
    decode true (.bus 0x1FFFEAB) = .wrHram 0xFFFE 0xAB ∧ decode true (.bus 0x1FFFF11) = .wrIe 0x11 ∧
    decode true (.bus 0x1FF0155) = .wrIoUnmapped 0xFF01 0x55 := by decide

/-- E8–E14, and every button of R60's table. -/
theorem test_decode_host_ports :
    decode true (.btn 0x1) = .setButton .up true ∧ decode true (.btn 0x3) = .setButton .down true ∧
    decode true (.btn 0x4) = .setButton .left false ∧ decode true (.btn 0x7) = .setButton .right true ∧
    decode true (.btn 0x8) = .setButton .a false ∧ decode true (.btn 0xB) = .setButton .b true ∧
    decode true (.btn 0xD) = .setButton .start true ∧ decode true (.btn 0xE) = .setButton .select false ∧
    decode true (.view 0x1FFF) = .viewVram 0x1FFF ∧ decode true (.view 0x209F) = .viewOam 0x9F ∧
    decode true (.view 0x20A0) = .viewOam 0xA0 := by decide

/-- Section 2.8: the read operations on both sides of each row boundary. -/
theorem test_decode_boundaries :
    decodeRead true 0x00FF = .rdBoot 0x00FF ∧ decodeRead true 0x3FFF = .rdRom0 0x3FFF ∧
    decodeRead true 0x4000 = .rdRomX 0x4000 ∧ decodeRead true 0x9FFF = .rdVram 0x9FFF ∧
    decodeRead true 0xBFFF = .rdCram 0xBFFF ∧ decodeRead true 0xDFFF = .rdWram 0xDFFF ∧
    decodeRead true 0xFDFF = .rdEcho 0xFDFF ∧ decodeRead true 0xFE00 = .rdOam 0xFE00 ∧
    decodeRead true 0xFEFF = .rdUnusable 0xFEFF ∧ decodeRead true 0xFF0E = .rdIoUnmapped 0xFF0E ∧
    decodeRead true 0xFF10 = .rdIoUnmapped 0xFF10 ∧ decodeRead true 0xFF3F = .rdIoUnmapped 0xFF3F ∧
    decodeRead true 0xFF40 = .rdPpureg 0xFF40 ∧ decodeRead true 0xFF4B = .rdPpureg 0xFF4B ∧
    decodeRead true 0xFF4C = .rdIoUnmapped 0xFF4C ∧ decodeRead true 0xFF4F = .rdIoUnmapped 0xFF4F ∧
    decodeRead true 0xFF51 = .rdIoUnmapped 0xFF51 ∧ decodeRead true 0xFF7F = .rdIoUnmapped 0xFF7F ∧
    decodeRead true 0xFFFE = .rdHram 0xFFFE := by decide

/-- Section 2.8: the write operations there. -/
theorem test_decode_write_boundaries :
    decodeWrite 0x00FF 1 = .wrRamen 0x00FF 1 ∧ decodeWrite 0x1FFF 1 = .wrRamen 0x1FFF 1 ∧
    decodeWrite 0x3FFF 1 = .wrRombank 0x3FFF 1 ∧ decodeWrite 0x5FFF 1 = .wrSecondary 0x5FFF 1 ∧
    decodeWrite 0x7FFF 1 = .wrMode 0x7FFF 1 ∧ decodeWrite 0x9FFF 1 = .wrVram 0x9FFF 1 ∧
    decodeWrite 0xBFFF 1 = .wrCram 0xBFFF 1 ∧ decodeWrite 0xDFFF 1 = .wrWram 0xDFFF 1 ∧
    decodeWrite 0xE000 1 = .wrEcho 0xE000 1 ∧ decodeWrite 0xFE00 1 = .wrOam 0xFE00 1 ∧
    decodeWrite 0xFEFF 1 = .wrUnusable 0xFEFF 1 ∧ decodeWrite 0xFF0E 1 = .wrIoUnmapped 0xFF0E 1 ∧
    decodeWrite 0xFF3F 1 = .wrIoUnmapped 0xFF3F 1 ∧ decodeWrite 0xFF4B 1 = .wrPpureg 0xFF4B 1 ∧
    decodeWrite 0xFF4F 1 = .wrIoUnmapped 0xFF4F 1 ∧ decodeWrite 0xFF7F 1 = .wrIoUnmapped 0xFF7F 1 ∧
    decodeWrite 0xFF80 1 = .wrHram 0xFF80 1 := by decide

/-- E1–E6, E9, E13 the other way: encoding gives the word. -/
theorem test_encode_words :
    encode (.wrRamen 0x0000 0x0A) = .bus 0x100000A ∧ encode (.wrRombank 0x2000 0x05) = .bus 0x1200005 ∧
    encode (.rdRomX 0x4000) = .bus 0x0400000 ∧ encode (.wrBootflag 0x01) = .bus 0x1FF5001 ∧
    encode .rdIe = .bus 0x0FFFF00 ∧ encode (.wrIe 0xFF) = .bus 0x1FFFFFF ∧
    encode (.setButton .right true) = .btn 0x7 ∧ encode (.viewOam 0x9F) = .view 0x209F := by decide

/-- R68, R69: the notation and the pseudo-operations. -/
theorem test_assemble :
    assemble (.rd 0x4000) = .bus 0x0400000 ∧ assemble (.wr 0xFFFF 0xFF) = .bus 0x1FFFFFF ∧
    assemble (.btn .start true) = .btn 0xD ∧ assemble (.viewV 0x1FFF) = .view 0x1FFF ∧
    assemble (.viewO 0x9F) = .view 0x209F ∧ assemble .ramOn = .bus 0x100000A ∧ assemble .ramOff = .bus 0x1000000 ∧
    assemble (.romBank 5) = .bus 0x1200005 ∧ assemble (.secBank 2) = .bus 0x1400002 ∧
    assemble (.mode 1) = .bus 0x1600001 ∧ assemble .bootOff = .bus 0x1FF5001 ∧
    assemble (.joySel 0x20) = .bus 0x1FF0020 := by decide

/-- A number that is no word of its format is rejected by name (R59–R61; log entry 26). -/
theorem test_reject_by_name :
    Transaction.ofTableWord 25 0x2000000 = .error (.wordTooWide .bus25 0x2000000) ∧
    Transaction.ofTableWord 4 0x10 = .error (.wordTooWide .btn4 0x10) ∧
    Transaction.ofTableWord 12 0 = .error (.noSuchFormat 12) ∧ decodeTableWord 12 0 = none := by
  refine ⟨rfl, rfl, rfl, rfl⟩

/-- The table's numbering, and the word placed as the first transaction after reset (log entries 4, 10). -/
theorem test_table_words :
    decodeTableWord 25 0x1200005 = some (.wrRombank 0x2000 0x05) ∧ decodeTableWord 4 0xD = some (.setButton .start true) ∧
    decodeTableWord 14 0x209F = some (.viewOam 0x9F) ∧
    (after (step (State.reset.withFetchWord 25 0x1200005))).map State.bank =
      some { ramEnabled := false, romBankNumber := 5, secondaryRegister := 0, bankingMode := .simple } := by decide

/-! ### One step for each instruction -/

/-- M2, M4, and M20 under `None`. -/
theorem test_wrRamen :
    (bankAfter (.wrRamen 0x1FFF 0x1A) sA).map BankRegs.ramEnabled = some true ∧
    (bankAfter (.wrRamen 0x0000 0x0B) (ramOn sA)).map BankRegs.ramEnabled = some false ∧
    (bankAfter (.wrRamen 0x0000 0x0A) sD).map BankRegs.ramEnabled = some false := by decide

/-- M6–M9 and M20. -/
theorem test_wrRombank :
    (bankAfter (.wrRombank 0x2000 0x00) sA).map BankRegs.romBankNumber = some 1 ∧
    (bankAfter (.wrRombank 0x3FFF 0x1F) sA).map BankRegs.romBankNumber = some 31 ∧
    (bankAfter (.wrRombank 0x2000 0xE5) sA).map BankRegs.romBankNumber = some 5 ∧
    (bankAfter (.wrRombank 0x2000 0x20) sA).map BankRegs.romBankNumber = some 1 ∧
    (bankAfter (.wrRombank 0x2000 0x05) sD).map BankRegs.romBankNumber = some 1 := by decide

/-- M10–M13: the bound of R16 under both policies. -/
theorem test_wrRombank_bound :
    (bankAfter (.wrRombank 0x2000 0x18) (State.ofCfg cfgC)).map BankRegs.romBankNumber = some 0 ∧
    (bankAfter (.wrRombank 0x2000 0x18) (State.ofCfg (clamped cfgC))).map BankRegs.romBankNumber = some 23 ∧
    (bankAfter (.wrRombank 0x2000 0x1F) (State.ofCfg cfgC)).map BankRegs.romBankNumber = some 7 ∧
    (bankAfter (.wrRombank 0x2000 0x02) (State.ofCfg cfgH)).map BankRegs.romBankNumber = some 0 ∧
    (bankAfter (.wrRombank 0x2000 0x03) (State.ofCfg (clamped cfgH))).map BankRegs.romBankNumber = some 1 := by decide

/-- M14–M16 and M20. -/
theorem test_wrSecondary :
    (bankAfter (.wrSecondary 0x4000 0x03) sA).map BankRegs.secondaryRegister = some 0 ∧
    (bankAfter (.wrSecondary 0x4000 0x03) sB).map BankRegs.secondaryRegister = some 3 ∧
    (bankAfter (.wrSecondary 0x5FFF 0xFE) sB).map BankRegs.secondaryRegister = some 2 ∧
    (bankAfter (.wrSecondary 0x4000 0x03) sD).map BankRegs.secondaryRegister = some 0 := by decide

/-- M17–M20. -/
theorem test_wrMode :
    (bankAfter (.wrMode 0x6000 0x01) sA).map BankRegs.bankingMode = some .advanced ∧
    (bankAfter (.wrMode 0x7FFF 0x02) sA).map BankRegs.bankingMode = some .simple ∧
    (bankAfter (.wrMode 0x6000 0xFF) sA).map BankRegs.bankingMode = some .advanced ∧
    (bankAfter (.wrMode 0x6000 0x01) sD).map BankRegs.bankingMode = some .simple := by decide

/-- RX5, RX6 by bank 2 as in P2 line 8, RX13. -/
theorem test_rdRom0 :
    data (.rdRom0 0x0000) (withBank sB { sB.bank with secondaryRegister := 2 }) = some (some 0x00) ∧
    data (.rdRom0 0x0000) (withBank sB { sB.bank with secondaryRegister := 2, bankingMode := .advanced }) =
      some (some 0x02) ∧
    data (.rdRom0 0x0123) sE = some (some 0x23) := by decide

/-- RX2, RX4, RX12, RX13. -/
theorem test_rdRomX :
    data (.rdRomX 0x7FFF) (withBank sA { sA.bank with romBankNumber := 5 }) = some (some 0x05) ∧
    data (.rdRomX 0x4000) (withBank sB { sB.bank with secondaryRegister := 1, romBankNumber := 2 }) = some (some 0x22) ∧
    data (.rdRomX 0x4000) (withBank sD { sD.bank with romBankNumber := 5 }) = some (some 0x01) ∧
    data (.rdRomX 0x4123) sE = some (some 0x23) := by decide

/-- RX7 under both policies, RX9's offset. -/
theorem test_rdRomX_bound :
    data (.rdRomX 0x4000) (withBank sB { sB.bank with secondaryRegister := 2 }) = some (some 0x01) ∧
    data (.rdRomX 0x4000) (withBank (State.ofCfg (clamped cfgB)) { sB.bank with secondaryRegister := 2 }) =
      some (some 0x3F) ∧
    romOffset cfgF { sB.bank with secondaryRegister := 3, romBankNumber := 0x1F } 0x7FFF = 0x1FFFFF := by decide

/-- A1, A4, A9 (mirrored, always enabled under `None`), A12. -/
theorem test_rdCram :
    data (.rdCram 0xA000) sA = some (some 0xFF) ∧ data (.rdCram 0xBFFF) (ramOn sA) = some (some 0x00) ∧
    data (.rdCram 0xB800) (setByte sD .cram 0 0x11) = some (some 0x11) ∧ data (.rdCram 0xBFFF) sE = some (some 0xFF) := by
  decide

/-- A2 (discarded while disabled), A5, A8, A10. -/
theorem test_wrCram :
    byteAfter (.wrCram 0xA000 0x42) sA .cram 0 = some 0x00 ∧
    byteAfter (.wrCram 0xA001 0x77)
      (withBank sB { sB.bank with ramEnabled := true, bankingMode := .advanced, secondaryRegister := 2 }) .cram 0x4001 =
      some 0x77 ∧
    byteAfter (.wrCram 0xA000 0x99)
      (withBank sG { sG.bank with ramEnabled := true, bankingMode := .advanced, secondaryRegister := 3 }) .cram 0 =
      some 0x99 ∧
    byteAfter (.wrCram 0xBFFF 0x22) sD .cram 0x7FF = some 0x22 := by decide

/-- S1, S3. -/
theorem test_rdBoot :
    data (.rdBoot 0x0050) sA = some (some 0x81) ∧ data (.rdBoot 0x00FF) sA = some (some 0x30) ∧
    data (.rdBoot 0x000F) sD = some (some 0xCF) ∧ data (.rdBoot 0x0010) sD = some (some 0xFF) := by decide

/-- S6, S7. -/
theorem test_vram :
    byteAfter (.wrVram 0x9FFF 0x01) sA (.seg .vram) 0x1FFF = some 0x01 ∧
    data (.rdVram 0x8000) (setByte sA (.seg .vram) 0 0xAA) = some (some 0xAA) := by decide

/-- P4 line 1, S8. -/
theorem test_wram :
    byteAfter (.wrWram 0xC005 0x99) sA (.seg .wram) 5 = some 0x99 ∧ data (.rdWram 0xC000) sA = some (some 0x00) ∧
    data (.rdWram 0xDDFF) (setByte sA (.seg .wram) 0x1DFF 0x4D) = some (some 0x4D) := by decide

/-- S9, S10. -/
theorem test_echo :
    data (.rdEcho 0xFDFF) (setByte sA (.seg .wram) 0x1DFF 0x3C) = some (some 0x3C) ∧
    byteAfter (.wrEcho 0xFDFF 0x4D) sA (.seg .wram) 0x1DFF = some 0x4D := by decide

/-- S11 (no echo of 0xDE00), S12. -/
theorem test_oam :
    data (.rdOam 0xFE00) (setByte sA (.seg .wram) 0x1E00 0x12) = some (some 0x00) ∧
    byteAfter (.wrOam 0xFE9F 0x11) sA (.seg .oam) 159 = some 0x11 := by decide

/-- S13: nothing of `OAM` changes. -/
theorem test_unusable :
    data (.rdUnusable 0xFEFF) sA = some (some 0xFF) ∧ data (.wrUnusable 0xFEA0 0x12) sA = some none ∧
    byteAfter (.wrUnusable 0xFEA0 0x12) sA (.seg .oam) 0 = some 0x00 := by decide

/-- I2, I3, I4, I6. -/
theorem test_rdJoyp :
    data .rdJoyp { sA with btn := { sA.btn with right := true } } = some (some 0xFF) ∧
    data .rdJoyp { sA with joypSel := 0b10, btn := { sA.btn with right := true } } = some (some 0xFE) ∧
    data .rdJoyp { sA with joypSel := 0b10, btn := { sA.btn with right := true, up := true } } = some (some 0xFA) ∧
    data .rdJoyp { sA with joypSel := 0b01, btn := { sA.btn with right := true, up := true, a := true, start := true } } =
      some (some 0xF6) := by decide

/-- I3, I9. -/
theorem test_wrJoyp :
    (after (exec (.wrJoyp 0x20) sA)).map State.joypSel = some 0b10 ∧
    (after (exec (.wrJoyp 0xCF) sA)).map State.joypSel = some 0b00 := by decide

/-- I10–I13. -/
theorem test_if :
    data .rdIf sA = some (some 0xE0) ∧ data .rdIf { sA with ifReg := 0x04 } = some (some 0xE4) ∧
    (after (exec (.wrIf 0xFF) sA)).map State.ifReg = some 0x1F ∧
    (after (exec (.wrIf 0xE0) sA)).map State.ifReg = some 0x00 := by decide

/-- I14. -/
theorem test_ie :
    data .rdIe { sA with ieReg := 0x05 } = some (some 0xE5) ∧
    (after (exec (.wrIe 0xA5) sA)).map State.ieReg = some 0x05 := by decide

/-- I16 (no DMA), I17. -/
theorem test_ppureg :
    data (.rdPpureg 0xFF4B) (setByte sA (.seg .ppureg) 11 0x07) = some (some 0x07) ∧
    byteAfter (.wrPpureg 0xFF46 0xC0) sA (.seg .ppureg) 6 = some 0xC0 ∧
    byteAfter (.wrPpureg 0xFF46 0xC0) sA (.seg .oam) 0 = some 0x00 := by decide

/-- S2, T6 (one way), I18. -/
theorem test_bootflag :
    data .rdBootflag sA = some (some 0xFF) ∧
    (after (exec (.wrBootflag 0x01) sA)).map State.bootOverlayActive = some false ∧
    (after (exec (.wrBootflag 0x02) sA)).map State.bootOverlayActive = some true ∧
    (after (exec (.wrBootflag 0x00) { sA with bootOverlayActive := false })).map State.bootOverlayActive =
      some false := by decide

/-- I19, I20. -/
theorem test_hram :
    data (.rdHram 0xFFFE) (setByte sA (.seg .hram) 126 0xAB) = some (some 0xAB) ∧
    byteAfter (.wrHram 0xFF80 0x01) sA (.seg .hram) 0 = some 0x01 ∧
    byteAfter (.wrIe 0x00) (setByte sA (.seg .hram) 126 0xAB) (.seg .hram) 126 = some 0xAB := by decide

/-- I21, I22. -/
theorem test_ioUnmapped :
    data (.rdIoUnmapped 0xFF04) sA = some (some 0xFF) ∧ data (.wrIoUnmapped 0xFF01 0x55) sA = some none := by decide

/-- H1, H2, I15 (no joypad request). -/
theorem test_setButton :
    (after (exec (.setButton .start true) sA)).map (fun t => (t.btn.start, t.btn.select, t.ifReg)) =
      some (true, false, 0) ∧
    (after (exec (.setButton .start true) { sA with btn := { sA.btn with start := true } })).map (fun t => t.btn) =
      some { sA.btn with start := true } := by decide

/-- H3, H4. -/
theorem test_viewVram :
    data (.viewVram 0x0000) (setByte sA (.seg .vram) 0 0xAA) = some (some 0xAA) ∧
    data (.viewVram 0x1FFF) (setByte sA (.seg .vram) 0x1FFF 0x01) = some (some 0x01) := by decide

/-- H5, H6, H7. -/
theorem test_viewOam :
    data (.viewOam 0x9F) (setByte sA (.seg .oam) 159 0x11) = some (some 0x11) ∧
    faultAfter (.viewOam 0xA0) sA = some (some (.segmentBoundsViolation .oam 0xA0)) ∧
    data (.viewOam 0xA0) sA = some none ∧
    faultAfter (.viewOam 0x1FFF) sA = some (some (.segmentBoundsViolation .oam 0x1FFF)) ∧
    faultCode viewFault = 2 := by decide

/-- P4 line 12: a halted session has no step. -/
theorem test_halted : after (step (plan sHalted [.bus 0x0C00500])) = none ∧ after (exec (.rdWram 0xC005) sHalted) = none := by
  decide

/-- T6 through `step`: the same word before and after the overlay ends (the state dependence of R65). -/
theorem test_step_boot_handoff :
    (after (step (plan sA [.bus 0x0005000]))).map State.response = some (some 0x81) ∧
    (after (step (plan { sA with bootOverlayActive := false } [.bus 0x0005000]))).map State.response =
      some (some 0x00) := by decide

/-- Z3, Z4, and the read-out of R119 in offset order, on an array of three bytes. -/
theorem test_session :
    data (.rdRom0 0x0000) sE = some (some 0x00) ∧ data (.rdCram 0xA000) sD = some (some 0x00) ∧
    saveRam (setByte (State.ofCfg { cfgD with ramSize := 3 }) .cram 1 0x77) = [0x00, 0x77, 0x00] := by decide

/-- R6's table, R119 (log entry 27): a save of `RAM_SIZE` bytes starts a session, a shorter and a longer one none. -/
theorem test_sessionStartFromSave :
    sessionStartFromSave cfgE [] = .next (State.ofCfg (withSaveRam cfgE [])) ∧
    sessionStartFromSave cfgE [0x00] = .refused .malformedConfig ∧
    sessionStartFromSave cfgD [0x77] = .refused .malformedConfig :=
  ⟨(if_pos (by decide)).trans (if_pos (by decide)), if_neg (by decide), if_neg (by decide)⟩

/-! ### Witnesses: states and operands that meet the premises of the statements, clause by clause -/

/-- An exec or step outcome that is a next state. -/
def IsNext (o : Host.Outcome State Fault Refusal) : Prop := ∃ t, o = .next t

theorem witness_StepRunsDecodedTransaction :
    ((plan sA [.bus 0x0FF0F00, .btn 0x1]).fault = none ∧
      (plan sA [.bus 0x0FF0F00, .btn 0x1]).schedule = .bus 0x0FF0F00 :: [.btn 0x1]) ∧
    (sA.fault = none ∧ sA.schedule = []) := ⟨⟨rfl, rfl⟩, rfl, rfl⟩

theorem witness_DecodeOfEncodeIsInstruction :
    ((Instr.rdBoot 0x00FF).wf = true ∧ (Instr.rdBoot 0x00FF).selectable true = true) ∧
    ((Instr.rdRom0 0x0000).wf = true ∧ (Instr.rdRom0 0x0000).selectable false = true) ∧
    ((Instr.rdRom0 0x0100).wf = true ∧ (Instr.rdRom0 0x0100).selectable true = true) ∧
    ((Instr.wrIoUnmapped 0xFF7F 0xFF).wf = true ∧ (Instr.wrIoUnmapped 0xFF7F 0xFF).selectable true = true) ∧
    ((Instr.viewOam 0x1FFF).wf = true ∧ (Instr.viewOam 0x1FFF).selectable false = true) := by decide

theorem witness_OwnerTableHoldsEveryAddress : 0x0100 ≤ (0x0100 : Addr).toNat := by decide

theorem witness_DecodeDependsOnOverlayOnlyForLowReads :
    decode true (.bus 0x000FF00) ≠ decode false (.bus 0x000FF00) ∧ (0x00FF : Addr).toNat ≤ 0x00FF := by decide

/-- Both branches of the statement have a configuration. -/
theorem witness_SessionExistsOnlyForWellFormedConfig :
    cfgWf cfgA = true ∧ IsNext (sessionStart cfgA) ∧ cfgWf cfgBad = false ∧
      sessionStart cfgBad = .refused .malformedConfig :=
  ⟨by decide, ⟨State.ofCfg cfgA, if_pos (by decide)⟩, by decide, if_neg (by decide)⟩

theorem witness_SessionStartLeavesResetValues :
    (cfgWf cfgA = true ∧ cfgA.cramInit = some []) ∧
    (cfgWf { cfgA with cramInit := none } = true ∧ ({ cfgA with cramInit := none } : Cfg).cramInit = none) := by decide

theorem witness_ReadsRightAfterSessionStart_low :
    (cfgWf cfgD = true ∧ (0x000F : Addr).toNat ≤ 0x00FF ∧ cfgD.bootPresent = true ∧ (0x000F : Addr).toNat < cfgD.bootLen) ∧
    ((0x0010 : Addr).toNat ≤ 0x00FF ∧ ¬(0x0010 : Addr).toNat < cfgD.bootLen) ∧
    (cfgWf cfgE = true ∧ (0x00FF : Addr).toNat ≤ 0x00FF ∧ cfgE.bootPresent = false) ∧
    (0x0100 ≤ (0x0100 : Addr).toNat ∧ (0x3FFF : Addr).toNat ≤ 0x3FFF) := by decide

theorem witness_ReadsRightAfterSessionStart_high :
    (0x4000 ≤ (0x4000 : Addr).toNat ∧ (0x7FFF : Addr).toNat ≤ 0x7FFF ∧ cfgE.romSize = 0x4000 ∧ cfgA.romSize ≠ 0x4000) ∧
    (0xA000 ≤ (0xA000 : Addr).toNat ∧ (0xBFFF : Addr).toNat ≤ 0xBFFF) ∧ (cfgA.mbc = .type1 ∧ cfgE.ramSize = 0) ∧
    (cfgD.mbc = .none ∧ 0 < cfgD.ramSize) ∧
    (0x8000 ≤ (0x8000 : Addr).toNat ∧ (0x9FFF : Addr).toNat ≤ 0x9FFF) ∧
    (0xC000 ≤ (0xC000 : Addr).toNat ∧ (0xFE9F : Addr).toNat ≤ 0xFE9F) := by decide

theorem witness_ReadsRightAfterSessionStart_io :
    (0xFF40 ≤ (0xFF40 : Addr).toNat ∧ (0xFF4B : Addr).toNat ≤ 0xFF4B) ∧
    (0xFF80 ≤ (0xFF80 : Addr).toNat ∧ (0xFFFE : Addr).toNat ≤ 0xFFFE) ∧
    (0xFEA0 ≤ (0xFEA0 : Addr).toNat ∧ (0xFF0E : Addr).toNat ≤ 0xFF0E) ∧
    (0xFF10 ≤ (0xFF10 : Addr).toNat ∧ (0xFF3F : Addr).toNat ≤ 0xFF3F) ∧
    (0xFF4C ≤ (0xFF4C : Addr).toNat ∧ (0xFF7F : Addr).toNat ≤ 0xFF7F) := by decide

theorem witness_EverySessionStartMeetsTheInvariant : sessionStart cfgA = .next (State.ofCfg cfgA) :=
  if_pos (by decide)

/-- A running session with bytes stored, a bank chosen and transactions to come. -/
def sRun (ts : List Transaction) : State :=
  { sA with
    bank := { sA.bank with ramEnabled := true, romBankNumber := 5 }
    cram := [(0x123, 0x77)]
    oam := [(0, 0x10), (159, 0x11)]
    schedule := ts }

theorem sRun_inv (ts : List Transaction) : SessionInv (sRun ts) where
  config := (by decide : cfgWf cfgA = true)
  arrays := by
    rintro (_ | g)
    · rfl
    · cases g <;> rfl
  noneKeepsReset := fun h => by cases h
  smallRomSecondary := fun _ => rfl
  romBankNumber := .inr ⟨5, by decide, by decide, (by decide : (5 : BitVec 5).toNat = bound .modulo 5 (romBankCount cfgA))⟩
  overlay := fun _ => rfl
  faultKind := fun _ h => by cases h

/-- A read, a store, a bank switch, the end of the overlay, and the view's fault. -/
theorem witness_StepKeepsTheInvariant :
    (SessionInv (sRun [.bus 0x0FE9F00]) ∧ IsNext (step (sRun [.bus 0x0FE9F00]))) ∧
    (SessionInv (sRun [.bus 0x1FE9F00]) ∧ IsNext (step (sRun [.bus 0x1FE9F00]))) ∧
    (SessionInv (sRun [.bus 0x120001F]) ∧ IsNext (step (sRun [.bus 0x120001F]))) ∧
    (SessionInv (sRun [.bus 0x1FF5001]) ∧ IsNext (step (sRun [.bus 0x1FF5001]))) ∧
    (SessionInv (sRun [.view 0x20A0]) ∧ IsNext (step (sRun [.view 0x20A0]))) :=
  ⟨⟨sRun_inv _, _, rfl⟩, ⟨sRun_inv _, _, rfl⟩, ⟨sRun_inv _, _, rfl⟩, ⟨sRun_inv _, _, rfl⟩, sRun_inv _, _, rfl⟩

theorem witness_ConfigurationNeverChanges : IsNext (step (plan sA [.bus 0x1FF5001])) := ⟨_, rfl⟩

theorem witness_HaltedSessionHasNoStep : sHalted.fault = some viewFault := rfl

theorem witness_EveryBusTransactionCompletes :
    (SessionInv (sRun [.bus 0x0A12300]) ∧ (sRun [.bus 0x0A12300]).fault = none ∧
      (sRun [.bus 0x0A12300]).schedule = [.bus 0x0A12300] ∧ busW 0x0A12300 = false) ∧
    (SessionInv (sRun [.bus 0x1FFFFFF]) ∧ (sRun [.bus 0x1FFFFFF]).fault = none ∧
      (sRun [.bus 0x1FFFFFF]).schedule = [.bus 0x1FFFFFF] ∧ busW 0x1FFFFFF = true) :=
  ⟨⟨sRun_inv _, rfl, rfl, by decide⟩, sRun_inv _, rfl, rfl, by decide⟩

theorem witness_TranslatedOffsets :
    cfgWf cfgF = true ∧ (0x7FFF : Addr).toNat ≤ 0x7FFF ∧ 0xA000 ≤ (0xA000 : Addr).toNat ∧
    (0xBFFF : Addr).toNat ≤ 0xBFFF ∧ 0 < cfgF.ramSize := by decide

/-- `n = 1` (only 0 lies below it), and b on both sides of n. -/
theorem witness_BoundIsBoundsSafe : 1 ≤ 1 ∧ 0 < 1 ∧ 1 ≤ 24 ∧ 23 < 24 ∧ ¬24 < 24 := by decide

theorem witness_BusReadsChangeNothing : cfgWf sA.cfg = true ∧ sA.fault = none := by decide

theorem witness_RepeatedReadsAgree :
    ∃ t u, exec (decodeRead true 0x0050) sA = .next t ∧ exec (decodeRead true 0x0050) t = .next u := ⟨_, _, rfl, rfl⟩

/-- The ends of each range, and cartridge RAM in reach under both variants. -/
theorem witness_WriteIsVisibleToTheVeryNextRead :
    cfgWf (ramOn sA).cfg = true ∧ IsNext (exec (decodeWrite 0x8000 1) sA) ∧ IsNext (exec (decodeWrite 0x9FFF 1) sA) ∧
    IsNext (exec (decodeWrite 0xC000 1) sA) ∧ IsNext (exec (decodeWrite 0xFE9F 1) sA) ∧
    IsNext (exec (decodeWrite 0xFF40 1) sA) ∧ IsNext (exec (decodeWrite 0xFF4B 1) sA) ∧
    IsNext (exec (decodeWrite 0xFF80 1) sA) ∧ IsNext (exec (decodeWrite 0xFFFE 1) sA) ∧
    ((ramOn sA).cfg.ramSize ≠ 0 ∧ (ramOn sA).bank.ramEnabled = true ∧ IsNext (exec (decodeWrite 0xA000 1) (ramOn sA))) ∧
    (sD.cfg.ramSize ≠ 0 ∧ sD.cfg.mbc ≠ .type1 ∧ IsNext (exec (decodeWrite 0xBFFF 1) sD)) :=
  ⟨by decide, ⟨_, rfl⟩, ⟨_, rfl⟩, ⟨_, rfl⟩, ⟨_, rfl⟩, ⟨_, rfl⟩, ⟨_, rfl⟩, ⟨_, rfl⟩, ⟨_, rfl⟩,
    ⟨by decide, rfl, _, rfl⟩, by decide, by decide, _, rfl⟩

/-- Each register does change by its writer. -/
theorem witness_EachRegisterHasItsOneWriter :
    (∃ t, exec (.wrRamen 0x0000 0x0A) sB = .next t ∧ t.bank.ramEnabled ≠ sB.bank.ramEnabled) ∧
    (∃ t, exec (.wrRombank 0x2000 0x05) sB = .next t ∧ t.bank.romBankNumber ≠ sB.bank.romBankNumber) ∧
    (∃ t, exec (.wrSecondary 0x4000 0x03) sB = .next t ∧ t.bank.secondaryRegister ≠ sB.bank.secondaryRegister) ∧
    (∃ t, exec (.wrMode 0x6000 0x01) sB = .next t ∧ t.bank.bankingMode ≠ sB.bank.bankingMode) ∧
    (∃ t, exec (.wrBootflag 0x01) sA = .next t ∧ t.bootOverlayActive ≠ sA.bootOverlayActive) ∧
    (∃ t, exec (.wrJoyp 0x20) sA = .next t ∧ t.joypSel ≠ sA.joypSel) ∧
    (∃ t, exec (.setButton .up true) sA = .next t ∧ t.btn ≠ sA.btn) ∧
    (∃ t, exec (.wrIf 0x01) sA = .next t ∧ t.ifReg ≠ sA.ifReg) ∧
    (∃ t, exec (.wrIe 0x01) sA = .next t ∧ t.ieReg ≠ sA.ieReg) :=
  ⟨⟨_, rfl, by decide⟩, ⟨_, rfl, by decide⟩, ⟨_, rfl, by decide⟩, ⟨_, rfl, by decide⟩, ⟨_, rfl, by decide⟩,
    ⟨_, rfl, by decide⟩, ⟨_, rfl, by decide⟩, ⟨_, rfl, by decide⟩, _, rfl, by decide⟩

/-- Each array does change by its writers. -/
theorem witness_EachArrayHasItsWriters :
    (∃ t, exec (.wrCram 0xA000 1) (ramOn sA) = .next t ∧ byteAt t .cram 0 ≠ byteAt (ramOn sA) .cram 0) ∧
    (∃ t, exec (.wrVram 0x8000 1) sA = .next t ∧ byteAt t (.seg .vram) 0 ≠ byteAt sA (.seg .vram) 0) ∧
    (∃ t, exec (.wrWram 0xC000 1) sA = .next t ∧ byteAt t (.seg .wram) 0 ≠ byteAt sA (.seg .wram) 0) ∧
    (∃ t, exec (.wrEcho 0xE000 1) sA = .next t ∧ byteAt t (.seg .wram) 0 ≠ byteAt sA (.seg .wram) 0) ∧
    (∃ t, exec (.wrOam 0xFE00 1) sA = .next t ∧ byteAt t (.seg .oam) 0 ≠ byteAt sA (.seg .oam) 0) ∧
    (∃ t, exec (.wrHram 0xFF80 1) sA = .next t ∧ byteAt t (.seg .hram) 0 ≠ byteAt sA (.seg .hram) 0) ∧
    (∃ t, exec (.wrPpureg 0xFF40 1) sA = .next t ∧ byteAt t (.seg .ppureg) 0 ≠ byteAt sA (.seg .ppureg) 0) :=
  ⟨⟨_, rfl, by decide⟩, ⟨_, rfl, by decide⟩, ⟨_, rfl, by decide⟩, ⟨_, rfl, by decide⟩, ⟨_, rfl, by decide⟩,
    ⟨_, rfl, by decide⟩, _, rfl, by decide⟩

theorem witness_OverlayNeverComesBack :
    IsNext (step (plan { sA with bootOverlayActive := false } [.bus 0x1FF5000])) ∧
    (plan { sA with bootOverlayActive := false } [.bus 0x1FF5000]).bootOverlayActive = false := ⟨⟨_, rfl⟩, rfl⟩

theorem witness_NoneVariantKeepsTheBankRegisters :
    (plan sD [.bus 0x1200005]).cfg.mbc = .none ∧ IsNext (step (plan sD [.bus 0x1200005])) := ⟨rfl, _, rfl⟩

theorem witness_ModesAgreeBelowOneMiB : SessionInv (sRun []) ∧ (sRun []).cfg.romSize < 1048576 :=
  ⟨sRun_inv _, by decide⟩

/-- Two sessions that differ in the boot overlay, a segment and the interrupt flags, and agree on what the controller
reads. -/
theorem witness_CartridgeReadsOnlyControllerState :
    let s₁ := ramOn sA
    let s₂ : State := { ramOn sA with bootOverlayActive := false, vram := [(0, 1)], ifReg := 3 }
    s₁ ≠ s₂ ∧ s₁.bank = s₂.bank ∧ s₁.cfg = s₂.cfg ∧ (∀ off, byteAt s₁ .cram off = byteAt s₂ .cram off) ∧
    (IsNext (exec (.rdRom0 0x3FFF) s₁) ∧ IsNext (exec (.rdRom0 0x3FFF) s₂)) ∧
    (IsNext (exec (.rdRomX 0x4000) s₁) ∧ IsNext (exec (.rdRomX 0x4000) s₂)) ∧
    (IsNext (exec (.rdCram 0xA000) s₁) ∧ IsNext (exec (.rdCram 0xA000) s₂)) ∧
    (IsNext (exec (.wrRamen 0x0000 0x0A) s₁) ∧ IsNext (exec (.wrRamen 0x0000 0x0A) s₂)) ∧
    (IsNext (exec (.wrRombank 0x2000 0x05) s₁) ∧ IsNext (exec (.wrRombank 0x2000 0x05) s₂)) ∧
    (IsNext (exec (.wrSecondary 0x4000 0x03) s₁) ∧ IsNext (exec (.wrSecondary 0x4000 0x03) s₂)) ∧
    (IsNext (exec (.wrMode 0x6000 0x01) s₁) ∧ IsNext (exec (.wrMode 0x6000 0x01) s₂)) :=
  ⟨by decide, rfl, rfl, fun _ => rfl, ⟨⟨_, rfl⟩, _, rfl⟩, ⟨⟨_, rfl⟩, _, rfl⟩, ⟨⟨_, rfl⟩, _, rfl⟩, ⟨⟨_, rfl⟩, _, rfl⟩,
    ⟨⟨_, rfl⟩, _, rfl⟩, ⟨⟨_, rfl⟩, _, rfl⟩, ⟨_, rfl⟩, _, rfl⟩

/-- The ends of the four control ranges, both variants, both sides of the 1 MiB gate, and a session at 1 MiB with
`secondary_register` at its reset value. -/
theorem witness_controller_writes :
    (sA.fault = none ∧ (0x0000 : Addr).toNat ≤ 0x1FFF ∧ (0x1FFF : Addr).toNat ≤ 0x1FFF) ∧
    (0x2000 ≤ (0x2000 : Addr).toNat ∧ (0x3FFF : Addr).toNat ≤ 0x3FFF) ∧
    (0x4000 ≤ (0x4000 : Addr).toNat ∧ (0x5FFF : Addr).toNat ≤ 0x5FFF) ∧
    (0x6000 ≤ (0x6000 : Addr).toNat ∧ (0x7FFF : Addr).toNat ≤ 0x7FFF) ∧
    (sA.cfg.mbc = .type1 ∧ sA.cfg.romSize < 0x100000 ∧ sA.bank.secondaryRegister = 0) ∧
    (sB.cfg.mbc = .type1 ∧ 0x100000 ≤ sB.cfg.romSize ∧ sB.fault = none) ∧ (sD.cfg.mbc = .none ∧ sD.fault = none) := by
  decide

theorem witness_controller_writes_complete :
    IsNext (exec (.wrRombank 0x2000 0) sA) ∧ IsNext (exec (.wrRombank 0x3FFF 0xFF) sD) ∧
    IsNext (exec (.wrSecondary 0x5FFF 0xFF) sA) ∧ IsNext (exec (.wrMode 0x7FFF 0x01) sB) :=
  ⟨⟨_, rfl⟩, ⟨_, rfl⟩, ⟨_, rfl⟩, _, rfl⟩

/-- LowRomWindowRead, HighRomWindowRead, CartridgeRamRead, CartridgeRamWrite: the ends of the windows, and each of absent,
disabled, enabled and always enabled RAM. -/
theorem witness_cartridge :
    (cfgWf sA.cfg = true ∧ cfgWf sD.cfg = true ∧ cfgWf sE.cfg = true ∧ sA.fault = none ∧ sD.fault = none ∧
      sE.fault = none) ∧
    ((0x0000 : Addr).toNat ≤ 0x3FFF ∧ (0x3FFF : Addr).toNat ≤ 0x3FFF ∧ 0x0100 ≤ (0x0100 : Addr).toNat) ∧
    (0x4000 ≤ (0x4000 : Addr).toNat ∧ (0x7FFF : Addr).toNat ≤ 0x7FFF) ∧
    (0xA000 ≤ (0xA000 : Addr).toNat ∧ (0xBFFF : Addr).toNat ≤ 0xBFFF) ∧
    (sE.cfg.ramSize = 0 ∧ (sA.cfg.mbc = .type1 ∧ sA.bank.ramEnabled = false) ∧
      ((ramOn sA).bank.ramEnabled = true ∧ (ramOn sA).cfg.ramSize ≠ 0) ∧ (sD.cfg.mbc = .none ∧ sD.cfg.ramSize ≠ 0)) := by
  decide

/-- Outside every well-formed configuration, where alone the guard of R77 answers: the first offset past a ROM of one
byte, in both windows; and RAM sizes of one byte and of no whole number of banks. -/
theorem witness_GuardRecordsTheDecodeFailure :
    let s := State.ofCfg cfgShort
    s.fault = none ∧ s.cfg.romSize ≤ romOffset s.cfg s.bank 0x0001 ∧ s.cfg.romSize ≤ romOffset s.cfg s.bank 0x4000 ∧
    s.cfg.ramSize ≠ 0 ∧ ({ cfgShort with ramSize := 0x2001 } : Cfg).ramSize ≠ 0 := by decide

/-- BootOverlayRead: the last byte of a short image, the first past it, the last address of the overlay. -/
theorem witness_BootOverlayRead :
    sD.fault = none ∧ (0x000F : Addr).toNat < sD.cfg.bootLen ∧ ¬(0x0010 : Addr).toNat < sD.cfg.bootLen ∧
    (0x00FF : Addr).toNat ≤ 0x00FF := by decide

/-- The segment statements: both ends of each range, and a next state of each store. -/
theorem witness_segments :
    sA.fault = none ∧ (0x8000 ≤ (0x8000 : Addr).toNat ∧ (0x9FFF : Addr).toNat ≤ 0x9FFF) ∧
    (0xC000 ≤ (0xC000 : Addr).toNat ∧ (0xDDFF : Addr).toNat ≤ 0xDDFF ∧ (0xDFFF : Addr).toNat ≤ 0xDFFF) ∧
    (0xE000 ≤ (0xE000 : Addr).toNat ∧ (0xFDFF : Addr).toNat ≤ 0xFDFF) ∧
    (0xFE00 ≤ (0xFE00 : Addr).toNat ∧ (0xFE9F : Addr).toNat ≤ 0xFE9F) ∧
    (0xFEA0 ≤ (0xFEA0 : Addr).toNat ∧ (0xFEFF : Addr).toNat ≤ 0xFEFF) ∧
    IsNext (exec (.wrVram 0x9FFF 1) sA) ∧ IsNext (exec (.wrWram 0xDDFF 1) sA) ∧ IsNext (exec (.wrEcho 0xFDFF 1) sA) ∧
    (∃ t, exec (.wrOam 0xFE9F 1) sA = .next t ∧ byteAt t (.seg .oam) 159 ≠ byteAt sA (.seg .oam) 159) :=
  ⟨rfl, by decide, by decide, by decide, by decide, by decide, ⟨_, rfl⟩, ⟨_, rfl⟩, ⟨_, rfl⟩, _, rfl, by decide⟩

/-- The IO statements: a running session, both ends of each range, and the next states their last clauses speak of. -/
theorem witness_io :
    sA.fault = none ∧ (0xFF40 ≤ (0xFF40 : Addr).toNat ∧ (0xFF4B : Addr).toNat ≤ 0xFF4B) ∧
    (0xFF80 ≤ (0xFF80 : Addr).toNat ∧ (0xFFFE : Addr).toNat ≤ 0xFFFE) ∧
    (0xFF01 ≤ (0xFF01 : Addr).toNat ∧ (0xFF0E : Addr).toNat ≤ 0xFF0E) ∧
    (0xFF10 ≤ (0xFF10 : Addr).toNat ∧ (0xFF3F : Addr).toNat ≤ 0xFF3F) ∧
    (0xFF4C ≤ (0xFF4C : Addr).toNat ∧ (0xFF4F : Addr).toNat ≤ 0xFF4F) ∧
    (0xFF51 ≤ (0xFF51 : Addr).toNat ∧ (0xFF7F : Addr).toNat ≤ 0xFF7F) ∧
    IsNext (exec (.wrIf 0xFF) sA) ∧ (0x02 : Byte) ≠ 0x01 ∧
    (IsNext (exec (.wrBootflag 0x01) sA) ∧ (0x3FFF : Addr).toNat ≤ 0x3FFF) :=
  ⟨rfl, by decide, by decide, by decide, by decide, by decide, by decide, ⟨_, rfl⟩, by decide, ⟨_, rfl⟩, by decide⟩

/-- JoypadReadComposesSelectedGroups: bits 4 and 7 are the ends of its last clause. -/
theorem witness_JoypadReadComposesSelectedGroups : sA.fault = none ∧ (4 ≤ 4 ∧ 4 < 8) ∧ (4 ≤ 7 ∧ 7 < 8) := by decide

/-- The host-port statements: another button, and both sides of the view's bound. -/
theorem witness_host_ports :
    sA.fault = none ∧ (Button.down ≠ Button.up) ∧ (0x9F : BitVec 13).toNat < 160 ∧ 160 ≤ (0xA0 : BitVec 13).toNat ∧
    160 ≤ (0x1FFF : BitVec 13).toNat := by decide

theorem witness_SaveRamReadOutSurvivesTheNextSession : cfgWf sD.cfg = true ∧ 0x7FF < sD.cfg.ramSize := by decide

end Sys2Proof.Tests
end

section
/-! PROOF. R19: no operation, and so no step, changes the configuration. -/

namespace Sys2Proof.Machine

/-- R19 for one operation, in any state: every access and every register write keeps the field `cfg`. -/
theorem exec_cfg {i : Instr} {s t : State} (h : exec i s = .next t) : t.cfg = s.cfg := by
  cases i <;> obtain ⟨-, rfl⟩ := transact_next.mp h
  case rdBoot => exact readBoot_cfg ..
  case rdRom0 | rdRomX => exact readRom_cfg ..
  case rdCram => exact readCram_cfg ..
  case wrCram => exact writeCram_cfg ..
  case rdVram | rdWram | rdEcho | rdOam | rdPpureg | rdHram | viewVram | viewOam => exact readSegment_cfg ..
  case wrVram | wrWram | wrEcho | wrOam | wrPpureg | wrHram => exact writeSegment_cfg ..
  case rdUnusable | rdJoyp | rdIf | rdBootflag | rdIe | rdIoUnmapped => exact deliver_cfg ..
  case wrRamen | wrRombank | wrSecondary | wrMode | wrUnusable | wrJoyp | wrIf | wrBootflag | wrIe | wrIoUnmapped
      | setButton => exact complete_cfg ..

/-- R19 for one step: a step idles or executes the transaction taken, and taking it keeps the configuration. -/
theorem step_cfg {s t : State} (h : step s = .next t) : t.cfg = s.cfg := by
  obtain ⟨-, ⟨-, rfl⟩ | ⟨x, -, hx⟩⟩ := step_next h
  · rw [idle_cfg, takeTransaction_cfg]
  · rw [exec_cfg hx, takeTransaction_cfg]

/-- Settles O16: every operation keeps `cfg` (`exec_cfg`), and so does every step (`step_cfg`). -/
theorem configurationNeverChanges : Obligations.ConfigurationNeverChanges := fun _ _ => step_cfg

end Sys2Proof.Machine
end

section
/-! PROOF. R80 and R81: what a control write to 0x4000 to 0x7FFF stores, and the banks the windows form after it. -/

namespace Sys2Proof.Machine

/-! ### The bits of `D`, and the write contract in the statements' arithmetic -/

theorem isType1_iff {c : Cfg} : isType1 c = true ↔ c.mbc = .type1 := beq_iff_eq

/-- `D & 0x03` is `D mod 4` (R63). -/
theorem secondaryField_eq (d : Byte) : secondaryField d = BitVec.ofNat 2 (d.toNat % 4) := by
  apply BitVec.eq_of_toNat_eq
  simp [secondaryField, BitVec.extractLsb'_toNat]

/-- `D & 0x01` is `D mod 2` (R63). -/
theorem modeField_eq (d : Byte) : modeField d = if d.toNat % 2 = 0 then .simple else .advanced := by
  have h : d &&& 0x1 = 0 ↔ d.toNat % 2 = 0 := by
    rw [← BitVec.toNat_inj, BitVec.toNat_and]
    exact Eq.congr_left (Nat.and_one_is_mod d.toNat)
  simp only [modeField, h]

/-- R80 in numbers: bits 1:0, behind the inclusive 1 MiB gate. -/
theorem applySecondary_eq (c : Cfg) (d : Byte) (r : BankRegs) :
    applySecondary c d r =
      if c.mbc = .type1 ∧ 0x100000 ≤ c.romSize then { r with secondaryRegister := BitVec.ofNat 2 (d.toNat % 4) }
      else r := by
  simp only [applySecondary, Bool.and_eq_true, isType1_iff, decide_eq_true_eq, secondaryField_eq]

/-- R81 in numbers: bit 0 alone. -/
theorem applyMode_eq (c : Cfg) (d : Byte) (r : BankRegs) :
    applyMode c d r =
      if c.mbc = .type1 then { r with bankingMode := if d.toNat % 2 = 0 then .simple else .advanced } else r := by
  simp only [applyMode, isType1_iff, modeField_eq]

/-! ### What the two writes do -/

theorem decodeWrite_secondary {a : Addr} (d : Byte) (lo : 0x4000 ≤ a.toNat) (hi : a.toNat ≤ 0x5FFF) :
    decodeWrite a d = .wrSecondary a d := by
  simp only [decodeWrite, regionOf_romXSecondary ⟨lo, hi⟩]

theorem decodeWrite_mode {a : Addr} (d : Byte) (lo : 0x6000 ≤ a.toNat) (hi : a.toNat ≤ 0x7FFF) :
    decodeWrite a d = .wrMode a d := by
  simp only [decodeWrite, regionOf_romXMode ⟨lo, hi⟩]

theorem setsBank_wrSecondary {s : State} (h : s.fault = none) (a : Addr) (d : Byte) :
    SetsBank (.wrSecondary a d) s (applySecondary s.cfg d s.bank) := transact_running h

theorem setsBank_wrMode {s : State} (h : s.fault = none) (a : Addr) (d : Byte) :
    SetsBank (.wrMode a d) s (applyMode s.cfg d s.bank) := transact_running h

/-- The state after an operation that sets the Bank Register Set holds the old configuration and the new set. -/
theorem SetsBank.cfg_bank {i : Instr} {s t : State} {b : BankRegs} (hb : SetsBank i s b) (ht : exec i s = .next t) :
    t.cfg = s.cfg ∧ t.bank = b := by
  cases hb.symm.trans ht
  exact ⟨rfl, rfl⟩

/-! ### The banks the windows form (R72, R73) -/

/-- Under either mode and either variant, `secondary_register` is the only RAM bank but 0. -/
theorem ramBank_of_secondary_zero (c : Cfg) {r : BankRegs} (h : r.secondaryRegister = 0) : ramBank c r = 0 := by
  simp [ramBank, h]

/-- Under `Type1` the mode alone decides whether the RAM window follows `secondary_register`. -/
theorem ramBank_type1 {c : Cfg} (h : c.mbc = .type1) (r : BankRegs) :
    ramBank c r = if r.bankingMode = .advanced then r.secondaryRegister.toNat else 0 := by
  simp only [ramBank, isAdvanced, isType1_iff.mpr h, Bool.true_and, beq_iff_eq]

/-- The low ROM window forms the RAM window's bank. -/
theorem romBank_low (c : Cfg) (r : BankRegs) {a : Addr} (h : a.toNat ≤ 0x3FFF) : romBank c r a = ramBank c r :=
  if_pos (by omega)

/-- The high ROM window is blind to the mode. -/
theorem romBank_high_mode (c : Cfg) (r : BankRegs) (m : BankingMode) {a : Addr} (h : 0x4000 ≤ a.toNat) :
    romBank c { r with bankingMode := m } a = romBank c r a := by
  simp only [romBank, if_neg (show ¬a.toNat < 0x4000 by omega)]

/-- The RAM bank after WR_MODE under `Type1`: 0, or `secondary_register` when bit 0 of `D` is set. -/
theorem ramBank_applyMode {c : Cfg} (h : c.mbc = .type1) (d : Byte) (r : BankRegs) :
    ramBank c (applyMode c d r) = if d.toNat % 2 = 0 then 0 else r.secondaryRegister.toNat := by
  rw [ramBank_type1 h, applyMode_eq, if_pos h]
  by_cases hd : d.toNat % 2 = 0 <;> simp [hd]

/-! ### The two statements -/

/-- Settles O33: below 1 MiB the gate is closed, so a `secondary_register` at 0 stays there and R73 forms bank 0. -/
theorem secondaryWriteStoresForLargeRomsOnly : Obligations.SecondaryWriteStoresForLargeRomsOnly := by
  intro s overlay a d hs lo hi
  have hset := setsBank_wrSecondary hs a d
  rw [applySecondary_eq] at hset
  refine ⟨(decode_writeByte ..).trans (decodeWrite_secondary d lo hi), hset, fun t ht hsmall hzero m => ?_⟩
  obtain ⟨-, hbank⟩ := hset.cfg_bank ht
  rw [if_neg (by omega)] at hbank
  exact ramBank_of_secondary_zero t.cfg (by rw [hbank, hzero])

/-- Settles O34: the low ROM window and the RAM window form the same bank, which WR_MODE switches; the high ROM window's
bank does not read the mode. -/
theorem modeWriteUsesBitZeroOnly : Obligations.ModeWriteUsesBitZeroOnly := by
  intro s overlay a d hs lo hi
  have hset := setsBank_wrMode hs a d
  refine ⟨(decode_writeByte ..).trans (decodeWrite_mode d lo hi), applyMode_eq .. ▸ hset, ?_, fun m x hx _ => ?_⟩
  · intro t x ht htype hx
    obtain ⟨hcfg, hbank⟩ := hset.cfg_bank ht
    rw [romBank_low _ _ hx, hcfg, hbank, and_self]
    exact ramBank_applyMode htype d s.bank
  · rw [romOffset, romBank_high_mode _ _ _ hx, romOffset]

end Sys2Proof.Machine
end

section
/-! PROOF. R88 to R97: what the bus reads from and stores to the Memory Segments and the unusable range. A segment
operation is named by the byte it accesses (`ReadsSegment`, `WritesSegment`), so the statements share one read law, one
store law and one law for a read after a store. -/

namespace Sys2Proof.Machine

/-! ### Bus words of any `D` (R65, R66) -/

theorem decode_readWord (overlay : Bool) (a : Addr) (d : Byte) :
    decode overlay (.bus (busWord false a d)) = decodeRead overlay a := by simp [decode]

theorem decode_writeWord (overlay : Bool) (a : Addr) (d : Byte) :
    decode overlay (.bus (busWord true a d)) = decodeWrite a d := decode_writeByte overlay a d

theorem decode_video (overlay : Bool) {a : Addr} (d : Byte) (h : 0x8000 ≤ a.toNat ∧ a.toNat ≤ 0x9FFF) :
    decode overlay (.bus (busWord false a d)) = .rdVram a ∧ decode overlay (.bus (busWord true a d)) = .wrVram a d := by
  simp only [decode_readWord, decode_writeWord, decodeRead, decodeWrite, regionOf_video h, and_self]

theorem decode_work (overlay : Bool) {a : Addr} (d : Byte) (h : 0xC000 ≤ a.toNat ∧ a.toNat ≤ 0xDFFF) :
    decode overlay (.bus (busWord false a d)) = .rdWram a ∧ decode overlay (.bus (busWord true a d)) = .wrWram a d := by
  simp only [decode_readWord, decode_writeWord, decodeRead, decodeWrite, regionOf_work h, and_self]

theorem decode_echo (overlay : Bool) {a : Addr} (d : Byte) (h : 0xE000 ≤ a.toNat ∧ a.toNat ≤ 0xFDFF) :
    decode overlay (.bus (busWord false a d)) = .rdEcho a ∧ decode overlay (.bus (busWord true a d)) = .wrEcho a d := by
  simp only [decode_readWord, decode_writeWord, decodeRead, decodeWrite, regionOf_echo h, and_self]

theorem decode_objectAttribute (overlay : Bool) {a : Addr} (d : Byte) (h : 0xFE00 ≤ a.toNat ∧ a.toNat ≤ 0xFE9F) :
    decode overlay (.bus (busWord false a d)) = .rdOam a ∧ decode overlay (.bus (busWord true a d)) = .wrOam a d := by
  simp only [decode_readWord, decode_writeWord, decodeRead, decodeWrite, regionOf_objectAttribute h, and_self]

theorem decode_unusable (overlay : Bool) {a : Addr} (d : Byte) (h : 0xFEA0 ≤ a.toNat ∧ a.toNat ≤ 0xFEFF) :
    decode overlay (.bus (busWord false a d)) = .rdUnusable a ∧
      decode overlay (.bus (busWord true a d)) = .wrUnusable a d := by
  simp only [decode_readWord, decode_writeWord, decodeRead, decodeWrite, regionOf_unusable h, and_self]

/-! ### Operations that access one byte of a segment (R86) -/

/-- In every state, `i` is the bounds-checked read of byte `o` of `g`. -/
def ReadsSegment (i : Instr) (g : Segment) (o : Nat) : Prop := ∀ s, exec i s = transact s (readSegment g o s)

/-- In every state, `i` is the bounds-checked write of `v` to byte `o` of `g`. -/
def WritesSegment (i : Instr) (g : Segment) (o : Nat) (v : Byte) : Prop :=
  ∀ s, exec i s = transact s (writeSegment g o v s)

theorem ReadsSegment.reads {i : Instr} {g : Segment} {o : Nat} {s : State} (hi : ReadsSegment i g o)
    (ho : o < segmentLength g) (hs : s.fault = none) : Reads i s (byteAt s (.seg g) o) := by
  rw [Reads, hi s, transact_running hs, readSegment_inside s ho, deliver]

/-- A completed write of one byte meets the frame `StoresByte` asks for. -/
theorem storesByte_setByte (s : State) (r : Ram) (o : Nat) (v : Byte) :
    StoresByte s (complete (setByte s r o v)) r o v where
  stored := by simp
  others := fun r' o' hne => by rw [byteAt_complete, byteAt_setByte_other s v hne]
  regs := by constructor <;> simp
  noData := rfl

theorem WritesSegment.stores {i : Instr} {g : Segment} {o : Nat} {v : Byte} {s : State} (hi : WritesSegment i g o v)
    (ho : o < segmentLength g) (hs : s.fault = none) : Stores i s (.seg g) o v :=
  ⟨_, by rw [hi s, transact_running hs, writeSegment_inside v s ho], storesByte_setByte ..⟩

/-- Whichever operation stored the byte, any read of that byte then delivers it: the store left the session running. -/
theorem ReadsSegment.reads_stored {i j : Instr} {g : Segment} {o : Nat} {v : Byte} {s t : State}
    (hj : ReadsSegment j g o) (ho : o < segmentLength g) (hs : s.fault = none) (hi : Stores i s (.seg g) o v)
    (ht : exec i s = .next t) : Reads j t v := by
  obtain ⟨u, hu, hstore⟩ := hi
  cases hu.symm.trans ht
  exact hstore.stored ▸ hj.reads ho (hstore.regs.fault.trans hs)

/-! ### The byte each operation accesses (R62) -/

theorem readsSegment_rdVram {a : Addr} (lo : 0x8000 ≤ a.toNat) :
    ReadsSegment (.rdVram a) .vram (a.toNat - 0x8000) := vramOffset_eq lo ▸ fun _ => rfl

theorem writesSegment_wrVram {a : Addr} (d : Byte) (lo : 0x8000 ≤ a.toNat) :
    WritesSegment (.wrVram a d) .vram (a.toNat - 0x8000) d := vramOffset_eq lo ▸ fun _ => rfl

/-- Every offset of VRAM fits the view's thirteen bits (R61). -/
theorem readsSegment_viewVram {o : Nat} (h : o < 0x2000) : ReadsSegment (.viewVram (BitVec.ofNat 13 o)) .vram o := by
  have ho : (BitVec.ofNat 13 o).toNat = o := Nat.mod_eq_of_lt h
  exact fun s => congrArg (fun q => transact s (readSegment .vram q s)) ho

theorem readsSegment_rdWram {a : Addr} (lo : 0xC000 ≤ a.toNat) :
    ReadsSegment (.rdWram a) .wram (a.toNat - 0xC000) := wramOffset_eq lo ▸ fun _ => rfl

theorem writesSegment_wrWram {a : Addr} (d : Byte) (lo : 0xC000 ≤ a.toNat) :
    WritesSegment (.wrWram a d) .wram (a.toNat - 0xC000) d := wramOffset_eq lo ▸ fun _ => rfl

theorem readsSegment_rdEcho {a : Addr} (lo : 0xE000 ≤ a.toNat) :
    ReadsSegment (.rdEcho a) .wram (a.toNat - 0xE000) := echoOffset_eq lo ▸ fun _ => rfl

theorem writesSegment_wrEcho {a : Addr} (d : Byte) (lo : 0xE000 ≤ a.toNat) :
    WritesSegment (.wrEcho a d) .wram (a.toNat - 0xE000) d := echoOffset_eq lo ▸ fun _ => rfl

theorem readsSegment_rdOam {a : Addr} (lo : 0xFE00 ≤ a.toNat) :
    ReadsSegment (.rdOam a) .oam (a.toNat - 0xFE00) := oamOffset_eq lo ▸ fun _ => rfl

theorem writesSegment_wrOam {a : Addr} (d : Byte) (lo : 0xFE00 ≤ a.toNat) :
    WritesSegment (.wrOam a d) .oam (a.toNat - 0xFE00) d := oamOffset_eq lo ▸ fun _ => rfl

/-! ### The echo range (R92, R93) -/

/-- The echo range mirrors the work range 0x2000 below it, at every address. -/
theorem echoOffset_eq_wramOffset (a : Addr) : echoOffset a = wramOffset (a - 0x2000) := by
  unfold echoOffset wramOffset
  bv_omega

theorem exec_rdEcho (a : Addr) (s : State) : exec (.rdEcho a) s = exec (.rdWram (a - 0x2000)) s :=
  congrArg (fun o => transact s (readSegment .wram o s)) (echoOffset_eq_wramOffset a)

theorem exec_wrEcho (a : Addr) (d : Byte) (s : State) : exec (.wrEcho a d) s = exec (.wrWram (a - 0x2000) d) s :=
  congrArg (fun o => transact s (writeSegment .wram o d s)) (echoOffset_eq_wramOffset a)

/-- Reading the echo of a work address reads the work byte itself. -/
theorem exec_rdEcho_add (a : Addr) (s : State) : exec (.rdEcho (a + 0x2000)) s = exec (.rdWram a) s := by
  rw [exec_rdEcho, BitVec.add_sub_cancel]

/-! ### Which operation can change a byte of which array (R27–R31, R37) -/

/-- The array an operation stores to, if any. -/
def writtenRam : Instr → Option Ram
  | .wrCram _ _ => some .cram
  | .wrVram _ _ => some (.seg .vram)
  | .wrWram _ _ | .wrEcho _ _ => some (.seg .wram)
  | .wrOam _ _ => some (.seg .oam)
  | .wrPpureg _ _ => some (.seg .ppureg)
  | .wrHram _ _ => some (.seg .hram)
  | _ => none

/-- A byte that an operation changed lies in the array the operation stores to. -/
theorem writtenRam_of_byteAt_ne {i : Instr} {s t : State} {r : Ram} {off : Nat} (h : exec i s = .next t)
    (hne : byteAt t r off ≠ byteAt s r off) : writtenRam i = some r := by
  cases i <;> obtain ⟨-, rfl⟩ := transact_next.mp h
  case wrCram => exact congrArg some (byteAt_writeCram_ne hne).1.symm
  case wrVram | wrWram | wrEcho | wrOam | wrPpureg | wrHram => exact congrArg some (byteAt_writeSegment_ne hne).1.symm
  case rdBoot => exact absurd (byteAt_readBoot ..) hne
  case rdRom0 | rdRomX => exact absurd (byteAt_readRom ..) hne
  case rdCram => exact absurd (byteAt_readCram ..) hne
  case rdVram | rdWram | rdEcho | rdOam | rdPpureg | rdHram | viewVram | viewOam =>
    exact absurd (byteAt_readSegment ..) hne
  case rdUnusable | rdJoyp | rdIf | rdBootflag | rdIe | rdIoUnmapped => exact absurd (byteAt_deliver ..) hne
  case wrUnusable | wrIoUnmapped => exact absurd (byteAt_complete ..) hne
  case wrRamen | wrRombank | wrSecondary | wrMode | wrJoyp | wrIf | wrBootflag | wrIe | setButton =>
    exact absurd (by simp) hne

theorem eq_wrOam_of_writtenRam {i : Instr} (h : writtenRam i = some (.seg .oam)) : ∃ a d, i = .wrOam a d := by
  cases i
  case wrOam a d => exact ⟨a, d, rfl⟩
  all_goals simp [writtenRam] at h

/-! ### The five statements -/

/-- Settles O41: the bus read and the view read of the stored byte are both `ReadsSegment` of its VRAM offset. -/
theorem videoSegmentReadAndWrite : Obligations.VideoSegmentReadAndWrite := by
  intro s overlay a d hs lo hi
  have hin : a.toNat - 0x8000 < 0x2000 := by omega
  have hstore := (writesSegment_wrVram d lo).stores hin hs
  obtain ⟨hread, hwrite⟩ := decode_video overlay d ⟨lo, hi⟩
  exact ⟨hread, hwrite, (readsSegment_rdVram lo).reads hin hs, hstore, fun t ht =>
    ⟨(readsSegment_rdVram lo).reads_stored hin hs hstore ht, (readsSegment_viewVram hin).reads_stored hin hs hstore ht⟩⟩

/-- Settles O42: the echo read 0x2000 above is the work read of the stored byte (`exec_rdEcho_add`). -/
theorem workSegmentReadAndWrite : Obligations.WorkSegmentReadAndWrite := by
  intro s overlay a d hs lo hi
  have hin : a.toNat - 0xC000 < 0x2000 := by omega
  have hstore := (writesSegment_wrWram d lo).stores hin hs
  obtain ⟨hread, hwrite⟩ := decode_work overlay d ⟨lo, hi⟩
  refine ⟨hread, hwrite, (readsSegment_rdWram lo).reads hin hs, fun c => ?_, hstore, fun _ t ht => ?_⟩
  · exact (readsSegment_rdWram lo).reads (s := State.ofCfg c) hin rfl
  · exact (exec_rdEcho_add a t).trans ((readsSegment_rdWram lo).reads_stored hin hs hstore ht)

/-- Settles O43: R92 and R93's offsets are the work operations' at `A − 0x2000` (`echoOffset_eq_wramOffset`). -/
theorem echoMirrorsTheWorkSegment : Obligations.EchoMirrorsTheWorkSegment := by
  intro s overlay a d hs lo hi
  have hin : a.toNat - 0xE000 < 0x2000 := by omega
  have hstore := (writesSegment_wrEcho d lo).stores hin hs
  obtain ⟨hread, hwrite⟩ := decode_echo overlay d ⟨lo, hi⟩
  refine ⟨hread, hwrite, (readsSegment_rdEcho lo).reads hin hs, hstore, exec_rdEcho a s, exec_wrEcho a d s, ?_⟩
  intro t ht
  exact (exec_rdEcho a t).symm.trans ((readsSegment_rdEcho lo).reads_stored hin hs hstore ht)

/-- Settles O44: of all operations only WR_OAM stores to OAM (`writtenRam_of_byteAt_ne`). -/
theorem objectAttributeSegmentReadAndWrite : Obligations.ObjectAttributeSegmentReadAndWrite := by
  intro s overlay a d hs lo hi
  have hin : a.toNat - 0xFE00 < 160 := by omega
  have hstore := (writesSegment_wrOam d lo).stores hin hs
  obtain ⟨hread, hwrite⟩ := decode_objectAttribute overlay d ⟨lo, hi⟩
  refine ⟨hread, hwrite, (readsSegment_rdOam lo).reads hin hs, hstore, fun t ht => ?_, fun i t off ht hne => ?_⟩
  · exact (readsSegment_rdOam lo).reads_stored hin hs hstore ht
  · exact eq_wrOam_of_writtenRam (writtenRam_of_byteAt_ne ht hne)

/-- Settles O45: no storage is involved; a running session delivers the sentinel, and a write only completes. -/
theorem unusableRangeReadsSentinelAndDiscards : Obligations.UnusableRangeReadsSentinelAndDiscards := by
  intro s overlay a d hs lo hi
  obtain ⟨hread, hwrite⟩ := decode_unusable overlay d ⟨lo, hi⟩
  exact ⟨hread, hwrite, transact_running hs, transact_running hs⟩

end Sys2Proof.Machine
end

section
/-! PROOF. R41 to R43 and R59 to R66: the two columns of the decode table row by row, the round trips of the encoder,
and the tables as partitions of the addresses. -/

namespace Sys2Proof

open Sys2Proof.Machine

/-! ### The rows of the decode table -/

theorem decodeRead_boot {a : Addr} (h : a.toNat ≤ 0x00FF) : decodeRead true a = .rdBoot a := by
  simp only [decodeRead, regionOf_bootOverlay ⟨Nat.zero_le _, h⟩, if_true]

theorem decodeRead_rom0_inactive {a : Addr} (h : a.toNat ≤ 0x00FF) : decodeRead false a = .rdRom0 a := by
  simp only [decodeRead, regionOf_bootOverlay ⟨Nat.zero_le _, h⟩, Bool.false_eq_true, if_false]

theorem decodeRead_rom0_above (overlay : Bool) {a : Addr} (lo : 0x0100 ≤ a.toNat) (hi : a.toNat ≤ 0x3FFF) :
    decodeRead overlay a = .rdRom0 a := by
  rcases Nat.lt_or_ge a.toNat 0x2000 with h | h
  · simp only [decodeRead, regionOf_rom0RamEnable ⟨lo, by omega⟩]
  · simp only [decodeRead, regionOf_rom0RomBank ⟨h, hi⟩]

/-- Outside the active overlay's range the low window is the ROM's. -/
theorem decodeRead_rom0 {overlay : Bool} {a : Addr} (h : overlay = false ∨ 0x0100 ≤ a.toNat) (hi : a.toNat ≤ 0x3FFF) :
    decodeRead overlay a = .rdRom0 a := by
  rcases Nat.lt_or_ge a.toNat 0x0100 with hlow | hge
  · obtain rfl := h.resolve_right (by omega)
    exact decodeRead_rom0_inactive (by omega)
  · exact decodeRead_rom0_above overlay hge hi

theorem decodeRead_romX (overlay : Bool) {a : Addr} (lo : 0x4000 ≤ a.toNat) (hi : a.toNat ≤ 0x7FFF) :
    decodeRead overlay a = .rdRomX a := by
  rcases Nat.lt_or_ge a.toNat 0x6000 with h | h
  · simp only [decodeRead, regionOf_romXSecondary ⟨lo, by omega⟩]
  · simp only [decodeRead, regionOf_romXMode ⟨h, hi⟩]

/-- A write below 0x2000 is the controller's at 0x0000 to 0x00FF too (the spec's own decision D10). -/
theorem decodeWrite_ramEnable {a : Addr} (d : Byte) (h : a.toNat ≤ 0x1FFF) : decodeWrite a d = .wrRamen a d := by
  rcases Nat.lt_or_ge a.toNat 0x0100 with hlow | hge
  · simp only [decodeWrite, regionOf_bootOverlay ⟨Nat.zero_le _, Nat.le_of_lt_succ hlow⟩]
  · simp only [decodeWrite, regionOf_rom0RamEnable ⟨hge, h⟩]

theorem decodeWrite_romBank {a : Addr} (d : Byte) (lo : 0x2000 ≤ a.toNat) (hi : a.toNat ≤ 0x3FFF) :
    decodeWrite a d = .wrRombank a d := by
  simp only [decodeWrite, regionOf_rom0RomBank ⟨lo, hi⟩]

theorem decode_cartridgeRam (overlay : Bool) {a : Addr} (d : Byte) (h : 0xA000 ≤ a.toNat ∧ a.toNat ≤ 0xBFFF) :
    decode overlay (.bus (busWord false a d)) = .rdCram a ∧ decode overlay (.bus (busWord true a d)) = .wrCram a d := by
  simp only [decode_readWord, decode_writeWord, decodeRead, decodeWrite, regionOf_cartridgeRam h, and_self]

theorem decode_pictureUnit (overlay : Bool) {a : Addr} (d : Byte) (h : 0xFF40 ≤ a.toNat ∧ a.toNat ≤ 0xFF4B) :
    decode overlay (.bus (busWord false a d)) = .rdPpureg a ∧
      decode overlay (.bus (busWord true a d)) = .wrPpureg a d := by
  simp only [decode_readWord, decode_writeWord, decodeRead, decodeWrite, regionOf_pictureUnit h, and_self]

theorem decode_highRam (overlay : Bool) {a : Addr} (d : Byte) (h : 0xFF80 ≤ a.toNat ∧ a.toNat ≤ 0xFFFE) :
    decode overlay (.bus (busWord false a d)) = .rdHram a ∧ decode overlay (.bus (busWord true a d)) = .wrHram a d := by
  simp only [decode_readWord, decode_writeWord, decodeRead, decodeWrite, regionOf_highRam h, and_self]

theorem decode_ioUnmapped (overlay : Bool) {a : Addr} (d : Byte)
    (h : (0xFF01 ≤ a.toNat ∧ a.toNat ≤ 0xFF0E) ∨ (0xFF10 ≤ a.toNat ∧ a.toNat ≤ 0xFF3F) ∨
      (0xFF4C ≤ a.toNat ∧ a.toNat ≤ 0xFF4F) ∨ (0xFF51 ≤ a.toNat ∧ a.toNat ≤ 0xFF7F)) :
    decode overlay (.bus (busWord false a d)) = .rdIoUnmapped a ∧
      decode overlay (.bus (busWord true a d)) = .wrIoUnmapped a d := by
  simp only [decode_readWord, decode_writeWord, decodeRead, decodeWrite, regionOf_ioUnmapped h, and_self]

theorem decode_joypad (overlay : Bool) (d : Byte) :
    decode overlay (.bus (busWord false 0xFF00 d)) = .rdJoyp ∧
      decode overlay (.bus (busWord true 0xFF00 d)) = .wrJoyp d :=
  ⟨decode_readWord .., decode_writeWord ..⟩

theorem decode_interruptFlag (overlay : Bool) (d : Byte) :
    decode overlay (.bus (busWord false 0xFF0F d)) = .rdIf ∧ decode overlay (.bus (busWord true 0xFF0F d)) = .wrIf d :=
  ⟨decode_readWord .., decode_writeWord ..⟩

theorem decode_bootFlag (overlay : Bool) (d : Byte) :
    decode overlay (.bus (busWord false 0xFF50 d)) = .rdBootflag ∧
      decode overlay (.bus (busWord true 0xFF50 d)) = .wrBootflag d :=
  ⟨decode_readWord .., decode_writeWord ..⟩

theorem decode_interruptEnable (overlay : Bool) (d : Byte) :
    decode overlay (.bus (busWord false 0xFFFF d)) = .rdIe ∧ decode overlay (.bus (busWord true 0xFFFF d)) = .wrIe d :=
  ⟨decode_readWord .., decode_writeWord ..⟩

/-! ### The round trips -/

/-- The two conditions of RD_ROM0's row are what its row lemma asks for. -/
theorem rdRom0_selectable_iff {overlay : Bool} {a : Addr} :
    (Instr.rdRom0 a).selectable overlay = true ↔ overlay = false ∨ 0x0100 ≤ a.toNat := by
  simp [Instr.selectable]

/-- Settles O3: each operation is its row's answer at every address of the row; where two rows share addresses (RD_BOOT
and RD_ROM0) the row's condition picks. -/
theorem decodeOfEncodeIsInstruction : Obligations.DecodeOfEncodeIsInstruction := by
  intro overlay i hwf hsel
  cases i
  case rdBoot a =>
    obtain rfl : overlay = true := hsel
    exact (decode_readByte ..).trans (decodeRead_boot (inRange_iff.mp hwf).2)
  case rdRom0 a =>
    exact (decode_readByte ..).trans (decodeRead_rom0 (rdRom0_selectable_iff.mp hsel) (inRange_iff.mp hwf).2)
  case rdRomX a =>
    obtain ⟨lo, hi⟩ := inRange_iff.mp hwf
    exact (decode_readByte ..).trans (decodeRead_romX overlay lo hi)
  case rdVram a => exact (decode_video overlay 0 (inRange_iff.mp hwf)).1
  case rdCram a => exact (decode_cartridgeRam overlay 0 (inRange_iff.mp hwf)).1
  case rdWram a => exact (decode_work overlay 0 (inRange_iff.mp hwf)).1
  case rdEcho a => exact (decode_echo overlay 0 (inRange_iff.mp hwf)).1
  case rdOam a => exact (decode_objectAttribute overlay 0 (inRange_iff.mp hwf)).1
  case rdUnusable a => exact (decode_unusable overlay 0 (inRange_iff.mp hwf)).1
  case rdJoyp => exact (decode_joypad overlay 0).1
  case rdIf => exact (decode_interruptFlag overlay 0).1
  case rdPpureg a => exact (decode_pictureUnit overlay 0 (inRange_iff.mp hwf)).1
  case rdBootflag => exact (decode_bootFlag overlay 0).1
  case rdHram a => exact (decode_highRam overlay 0 (inRange_iff.mp hwf)).1
  case rdIe => exact (decode_interruptEnable overlay 0).1
  case rdIoUnmapped a => exact (decode_ioUnmapped overlay 0 (isUnmappedIo_iff.mp hwf)).1
  case wrRamen a d => exact (decode_writeByte ..).trans (decodeWrite_ramEnable d (inRange_iff.mp hwf).2)
  case wrRombank a d =>
    obtain ⟨lo, hi⟩ := inRange_iff.mp hwf
    exact (decode_writeByte ..).trans (decodeWrite_romBank d lo hi)
  case wrSecondary a d =>
    obtain ⟨lo, hi⟩ := inRange_iff.mp hwf
    exact (decode_writeByte ..).trans (decodeWrite_secondary d lo hi)
  case wrMode a d =>
    obtain ⟨lo, hi⟩ := inRange_iff.mp hwf
    exact (decode_writeByte ..).trans (decodeWrite_mode d lo hi)
  case wrVram a d => exact (decode_video overlay d (inRange_iff.mp hwf)).2
  case wrCram a d => exact (decode_cartridgeRam overlay d (inRange_iff.mp hwf)).2
  case wrWram a d => exact (decode_work overlay d (inRange_iff.mp hwf)).2
  case wrEcho a d => exact (decode_echo overlay d (inRange_iff.mp hwf)).2
  case wrOam a d => exact (decode_objectAttribute overlay d (inRange_iff.mp hwf)).2
  case wrUnusable a d => exact (decode_unusable overlay d (inRange_iff.mp hwf)).2
  case wrJoyp d => exact (decode_joypad overlay d).2
  case wrIf d => exact (decode_interruptFlag overlay d).2
  case wrPpureg a d => exact (decode_pictureUnit overlay d (inRange_iff.mp hwf)).2
  case wrBootflag d => exact (decode_bootFlag overlay d).2
  case wrHram a d => exact (decode_highRam overlay d (inRange_iff.mp hwf)).2
  case wrIe d => exact (decode_interruptEnable overlay d).2
  case wrIoUnmapped a d => exact (decode_ioUnmapped overlay d (isUnmappedIo_iff.mp hwf)).2
  case setButton n p => simp [encode, decode]
  case viewVram o => simp [encode, decode]
  case viewOam o => simp [encode, decode]

theorem addr_eq_of_bounds {a : Addr} {n : Nat} (lo : n ≤ a.toNat) (hi : a.toNat ≤ n) : BitVec.ofNat 16 n = a := by
  rw [← Nat.le_antisymm hi lo, BitVec.ofNat_toNat, BitVec.setWidth_eq]

/-- Every read operation of the table has its address back in its word: a row without an operand holds one address. -/
theorem encode_decodeRead (overlay : Bool) (a : Addr) : encode (decodeRead overlay a) = readByte a := by
  have hs := regionOf_spec a
  unfold decodeRead
  generalize regionOf a = r at hs ⊢
  cases hs
  case bootOverlay => cases overlay <;> rfl
  case joypad lo hi | interruptFlag lo hi | bootFlag lo hi | interruptEnable lo hi =>
    exact congrArg readByte (addr_eq_of_bounds lo hi)
  all_goals rfl

theorem encode_decodeWrite (a : Addr) (d : Byte) : encode (decodeWrite a d) = writeByte a d := by
  have hs := regionOf_spec a
  unfold decodeWrite
  generalize regionOf a = r at hs ⊢
  cases hs
  case joypad lo hi | interruptFlag lo hi | bootFlag lo hi | interruptEnable lo hi =>
    exact congrArg (writeByte · d) (addr_eq_of_bounds lo hi)
  all_goals rfl

/-- A setter's word is made of its two fields (R60). -/
theorem btnWord_fields (w : BitVec 4) : btnWord (w.extractLsb' 1 3) (w.getLsbD 0) = w := by
  revert w; decide

/-- A view's word is made of its two fields (R61). -/
theorem viewWord_fields (w : BitVec 14) : viewWord (w.getLsbD 13) (w.extractLsb' 0 13) = w := by
  have h := w.isLt
  have hg : (w.getLsbD 13).toNat = w.toNat / 2 ^ 13 := by
    have hcases : w.toNat / 2 ^ 13 = 0 ∨ w.toNat / 2 ^ 13 = 1 := by omega
    rw [BitVec.getLsbD, Nat.testBit_eq_decide_div_mod_eq]
    rcases hcases with e | e <;> rw [e] <;> rfl
  apply BitVec.eq_of_toNat_eq
  rw [toNat_viewWord, hg, BitVec.extractLsb'_toNat, Nat.shiftRight_zero]
  omega

/-- Settles O4: a bus word by its column of the table (`encode_decodeRead`, `encode_decodeWrite`), the host ports' words
by their fields. -/
theorem encodeOfDecodeIsWord : Obligations.EncodeOfDecodeIsWord := by
  intro overlay t
  cases t with
  | bus w =>
    cases hw : busW w with
    | true =>
      have hfields := busWord_fields w
      rw [hw] at hfields
      simp only [decode, hw, if_true, encode_decodeWrite, writeByte, hfields]
    | false => simp only [decode, hw, Bool.false_eq_true, if_false, encode_decodeRead, readByte]
  | btn w => simp only [decode, encode, buttonIndex_buttonOf, btnWord_fields]
  | view w =>
    have hfields := viewWord_fields w
    cases hg : w.getLsbD 13 <;> rw [hg] at hfields
    · simp only [decode, hg, Bool.false_eq_true, if_false, encode, hfields]
    · simp only [decode, hg, if_true, encode, hfields]

/-! ### What decodes is well-formed -/

theorem decodeRead_wf (overlay : Bool) (a : Addr) : (decodeRead overlay a).wf = true := by
  have hs := regionOf_spec a
  unfold decodeRead
  generalize regionOf a = r at hs ⊢
  cases hs
  case bootOverlay => cases overlay <;> exact inRange_iff.mpr (by omega)
  case joypad | interruptFlag | bootFlag | interruptEnable => rfl
  case ioUnmapped1 | ioUnmapped2 | ioUnmapped3 | ioUnmapped4 => exact isUnmappedIo_iff.mpr (by omega)
  all_goals exact inRange_iff.mpr (by omega)

theorem decodeWrite_wf (a : Addr) (d : Byte) : (decodeWrite a d).wf = true := by
  have hs := regionOf_spec a
  unfold decodeWrite
  generalize regionOf a = r at hs ⊢
  cases hs
  case joypad | interruptFlag | bootFlag | interruptEnable => rfl
  case ioUnmapped1 | ioUnmapped2 | ioUnmapped3 | ioUnmapped4 => exact isUnmappedIo_iff.mpr (by omega)
  all_goals exact inRange_iff.mpr (by omega)

theorem decodeRead_selectable (overlay : Bool) (a : Addr) : (decodeRead overlay a).selectable overlay = true := by
  have hs := regionOf_spec a
  unfold decodeRead
  generalize regionOf a = r at hs ⊢
  cases hs
  case bootOverlay => cases overlay <;> rfl
  case rom0RamEnable lo hi => exact rdRom0_selectable_iff.mpr (.inr lo)
  case rom0RomBank lo hi => exact rdRom0_selectable_iff.mpr (.inr (by omega))
  all_goals rfl

/-- No write has a condition on the state. -/
theorem decodeWrite_selectable (overlay : Bool) (a : Addr) (d : Byte) :
    (decodeWrite a d).selectable overlay = true := by
  unfold decodeWrite
  cases regionOf a <;> rfl

theorem decode_wf (overlay : Bool) (t : Transaction) : (decode overlay t).wf = true := by
  cases t with
  | bus w =>
    rw [decode]
    cases busW w
    · exact decodeRead_wf overlay _
    · exact decodeWrite_wf _ _
  | btn w => rfl
  | view w => rw [decode]; cases w.getLsbD 13 <;> rfl

theorem decode_selectable (overlay : Bool) (t : Transaction) : (decode overlay t).selectable overlay = true := by
  cases t with
  | bus w =>
    rw [decode]
    cases busW w
    · exact decodeRead_selectable overlay _
    · exact decodeWrite_selectable overlay _ _
  | btn w => rfl
  | view w => rw [decode]; cases w.getLsbD 13 <;> rfl

/-- Settles O5: both columns of the table answer with a row that holds the address. -/
theorem decodedInstructionLiesInItsRow : Obligations.DecodedInstructionLiesInItsRow :=
  fun overlay t => ⟨decode_wf overlay t, decode_selectable overlay t⟩

/-! ### The tables -/

open Sys2Proof.Tables

/-- In a table whose rows stand in rising order, the row that holds an address is the only one. -/
theorem oneRowHolds_of_rising {α : Type} {rows : List (Nat × Nat × α)} {a : Addr} {row : Nat × Nat × α}
    (hrising : rows.Pairwise fun x y => x.2.1 < y.1) (hmem : row ∈ rows) (lo : row.1 ≤ a.toNat)
    (hi : a.toNat ≤ row.2.1) : OneRowHolds rows a row.2.2 := by
  refine ⟨row, hmem, ⟨lo, hi⟩, rfl, fun other hother ⟨lo', hi'⟩ => ?_⟩
  by_contra hne
  have hsymm : Std.Symm fun x y : Nat × Nat × α => x.2.1 < y.1 ∨ y.2.1 < x.1 := ⟨fun _ _ => Or.symm⟩
  have hapart := (hrising.imp Or.inl).forall (R := fun x y => x.2.1 < y.1 ∨ y.2.1 < x.1) hother hmem hne
  omega

theorem decodeRows_rising : decodeRows.Pairwise fun x y => x.2.1 < y.1 := by decide

theorem ownerRows_rising (overlay : Bool) : (ownerRows overlay).Pairwise fun x y => x.2.1 < y.1 := by
  cases overlay <;> decide

/-- R42's table has the row of an address's region. -/
theorem decodeRows_row (a : Addr) :
    ∃ lo hi, (lo, hi, regionOf a) ∈ decodeRows ∧ lo ≤ a.toNat ∧ a.toNat ≤ hi := by
  have hs := regionOf_spec a
  generalize regionOf a = r at hs ⊢
  cases hs <;> next lo hi => exact ⟨_, _, by decide, lo, hi⟩

/-- R41's table has the row of an address's owner: each of its rows is one region of R42's table or several in a row. -/
theorem ownerRows_row (overlay : Bool) (a : Addr) :
    ∃ lo hi, (lo, hi, ownerOf overlay a) ∈ ownerRows overlay ∧ lo ≤ a.toNat ∧ a.toNat ≤ hi := by
  have hs := regionOf_spec a
  unfold ownerOf
  generalize regionOf a = r at hs ⊢
  cases hs
  case bootOverlay lo hi => exact ⟨0x0000, 0x00FF, by simp [ownerRows, regionOwner], lo, hi⟩
  case rom0RamEnable | rom0RomBank | romXSecondary | romXMode =>
    exact ⟨0x0100, 0x7FFF, by simp [ownerRows, regionOwner], by omega, by omega⟩
  case video lo hi => exact ⟨0x8000, 0x9FFF, by simp [ownerRows, regionOwner], lo, hi⟩
  case cartridgeRam lo hi => exact ⟨0xA000, 0xBFFF, by simp [ownerRows, regionOwner], lo, hi⟩
  case work lo hi => exact ⟨0xC000, 0xDFFF, by simp [ownerRows, regionOwner], lo, hi⟩
  case echo lo hi => exact ⟨0xE000, 0xFDFF, by simp [ownerRows, regionOwner], lo, hi⟩
  case objectAttribute lo hi => exact ⟨0xFE00, 0xFE9F, by simp [ownerRows, regionOwner], lo, hi⟩
  case unusable lo hi => exact ⟨0xFEA0, 0xFEFF, by simp [ownerRows, regionOwner], lo, hi⟩
  all_goals exact ⟨0xFF00, 0xFFFF, by simp [ownerRows, regionOwner], by omega, by omega⟩

/-- Settles O6: the table has the region's row, and its rows stand in rising order. -/
theorem decodeTablePartitionsAddresses : Obligations.DecodeTablePartitionsAddresses := by
  intro a
  obtain ⟨lo, hi, hmem, hlo, hhi⟩ := decodeRows_row a
  exact oneRowHolds_of_rising decodeRows_rising hmem hlo hhi

/-- From 0x0100 on no region's owner depends on the overlay. -/
theorem ownerOf_above {a : Addr} (h : 0x0100 ≤ a.toNat) : ownerOf true a = ownerOf false a := by
  have hs := regionOf_spec a
  unfold ownerOf
  generalize regionOf a = r at hs ⊢
  cases hs
  case bootOverlay => omega
  all_goals rfl

/-- Settles O7: as O6, with the owner's row (`ownerRows_row`); only the boot overlay's owner asks for the state. -/
theorem ownerTableHoldsEveryAddress : Obligations.OwnerTableHoldsEveryAddress := by
  refine ⟨fun overlay a => ?_, fun a => ownerOf_above⟩
  obtain ⟨lo, hi, hmem, hlo, hhi⟩ := ownerRows_row overlay a
  exact oneRowHolds_of_rising (ownerRows_rising overlay) hmem hlo hhi

/-! ### What decoding asks of the state -/

theorem decodeRead_above {a : Addr} (h : 0x0100 ≤ a.toNat) : decodeRead true a = decodeRead false a := by
  have hs := regionOf_spec a
  unfold decodeRead
  generalize regionOf a = r at hs ⊢
  cases hs
  case bootOverlay => omega
  all_goals rfl

/-- Settles O8: writes and host-port words decode by one table for both states, reads from 0x0100 on too
(`decodeRead_above`). -/
theorem decodeDependsOnOverlayOnlyForLowReads : Obligations.DecodeDependsOnOverlayOnlyForLowReads := by
  refine ⟨fun t hne => ?_, fun a d h => ?_⟩
  · cases t with
    | bus w =>
      cases hw : busW w with
      | true => exact absurd (by simp only [decode, hw, if_true]) hne
      | false =>
        refine ⟨w, rfl, hw, ?_⟩
        by_contra hhigh
        apply hne
        simp only [decode, hw, Bool.false_eq_true, if_false, decodeRead_above (Nat.lt_of_not_le hhigh)]
    | btn w => exact absurd rfl hne
    | view w => exact absurd rfl hne
  · rw [decode_readWord, decode_readWord]
    exact ⟨decodeRead_boot h, decodeRead_rom0_inactive h⟩

/-- Settles O2: each word's fields are numerals, and the table answers for them. -/
theorem specWordsDecode : Obligations.SpecWordsDecode := by
  unfold Obligations.SpecWordsDecode
  decide

end Sys2Proof
end

section
/-! PROOF. R16, R72 to R85: the offsets the translations form, the controller's remaining writes, and the Cartridge's
reads and writes. -/

namespace Sys2Proof.Machine

/-! ### The offsets (R72 to R77) -/

/-- R76 for ROM: the bank lies below the bank count, and the image is that many banks of 0x4000 bytes. -/
theorem romOffset_lt {c : Cfg} (h : cfgWf c = true) (r : BankRegs) (a : Addr) : romOffset c r a < c.romSize := by
  obtain ⟨-, hwhole⟩ := cfgWf_romSize h
  have hbank := bound_lt c.bankBound (romBank c r a) (romBankCount_pos h)
  have hoff := romBankOffset_lt a
  simp only [romOffset, romBankCount] at hbank ⊢
  omega

/-- R76 for RAM, of any size but 0: the bank lies below the number of whole banks, and a small RAM has bank 0 and its
window. -/
theorem ramOffset_lt {c : Cfg} (h : c.ramSize ≠ 0) (r : BankRegs) (a : Addr) : ramOffset c r a < c.ramSize := by
  have hbank := bound_lt c.bankBound (ramBank c r) (ramBankCount_pos c)
  have hoff : cramWindowOffset a % ramWindow c < ramWindow c := Nat.mod_lt _ (by rw [ramWindow]; omega)
  simp only [ramOffset, ramBankCount] at hbank ⊢
  generalize cramWindowOffset a % ramWindow c = off at hoff ⊢
  rw [ramWindow] at hoff
  omega

/-- R75 for ROM: seven bits of bank and fourteen of offset. -/
theorem romOffset_le (c : Cfg) (r : BankRegs) (a : Addr) : romOffset c r a ≤ 0x1FFFFF := by
  have hbank := (bound_le c.bankBound (romBank c r a) (romBankCount c)).trans (romBank_le c r a)
  have hoff := romBankOffset_lt a
  rw [romOffset]
  omega

/-- R75 for RAM: two bits of bank and thirteen of offset. -/
theorem ramOffset_le (c : Cfg) (r : BankRegs) {a : Addr} (lo : 0xA000 ≤ a.toNat) (hi : a.toNat ≤ 0xBFFF) :
    ramOffset c r a ≤ 0x7FFF := by
  have hbank := (bound_le c.bankBound (ramBank c r) (ramBankCount c)).trans (ramBank_le c r)
  have hoff : cramWindowOffset a % ramWindow c ≤ a.toNat - 0xA000 := cramWindowOffset_eq lo ▸ Nat.mod_le _ _
  rw [ramOffset]
  omega

/-- R74: with `secondary_register` at 0 no window's bank reads the mode. -/
theorem romBank_mode_of_secondary_zero (c : Cfg) {r : BankRegs} (h : r.secondaryRegister = 0) (m : BankingMode)
    (a : Addr) : romBank c { r with bankingMode := m } a = romBank c r a := by
  rcases Nat.lt_or_ge a.toNat 0x4000 with hlow | hhigh
  · rw [romBank_low _ _ (by omega), romBank_low _ _ (by omega), ramBank_of_secondary_zero c h,
      ramBank_of_secondary_zero c (r := { r with bankingMode := m }) h]
  · exact romBank_high_mode c r m hhigh

/-- Settles O19: `romOffset_lt` and `ramOffset_lt`. -/
theorem translatedOffsetsLieInsideTheirStores : Obligations.TranslatedOffsetsLieInsideTheirStores :=
  fun _ r a hc => ⟨fun _ => romOffset_lt hc r a, fun _ _ hram => ramOffset_lt (Nat.ne_of_gt hram) r a⟩

/-- Settles O20: `bound` never raises a bank, and a bank has seven bits for ROM and two for RAM. -/
theorem translatedOffsetsAreBounded : Obligations.TranslatedOffsetsAreBounded :=
  fun c r a => ⟨fun _ => romOffset_le c r a, ramOffset_le c r⟩

/-- Settles O21: the laws of `bound`, and its two policies written out. -/
theorem boundIsBoundsSafe : Obligations.BoundIsBoundsSafe := by
  intro p b n hn
  refine ⟨bound_lt p b hn, bound_of_lt p, ?_⟩
  cases p
  case modulo => exact (if_pos rfl).symm
  case clamp => exact (if_neg nofun).symm

/-- Settles O29: below 1 MiB the invariant holds `secondary_register` at 0, the only bank the mode could choose. -/
theorem modesAgreeBelowOneMiB : Obligations.ModesAgreeBelowOneMiB := by
  intro s m a hinv hsmall
  have hzero := hinv.smallRomSecondary hsmall
  constructor
  · rw [romOffset, romBank_mode_of_secondary_zero _ hzero, romOffset]
  · rw [ramOffset, ramBank_of_secondary_zero _ (r := { s.bank with bankingMode := m }) hzero, ramOffset,
      ramBank_of_secondary_zero _ hzero]

/-! ### The offsets in the statements' arithmetic -/

theorem isAdvanced_iff {c : Cfg} {r : BankRegs} :
    isAdvanced c r = true ↔ c.mbc = .type1 ∧ r.bankingMode = .advanced := by
  rw [isAdvanced, Bool.and_eq_true, isType1_iff, beq_iff_eq]

theorem ramBank_eq (c : Cfg) (r : BankRegs) :
    ramBank c r = if c.mbc = .type1 ∧ r.bankingMode = .advanced then r.secondaryRegister.toNat else 0 := by
  simp only [ramBank, isAdvanced_iff]

theorem romBank_high (c : Cfg) (r : BankRegs) {a : Addr} (h : 0x4000 ≤ a.toNat) :
    romBank c r a = if c.mbc = .type1 then r.secondaryRegister.toNat * 32 + r.romBankNumber.toNat else 1 := by
  simp only [romBank, if_neg (Nat.not_lt.mpr h), isType1_iff, highBank_eq]

theorem romOffset_low (c : Cfg) (r : BankRegs) {a : Addr} (h : a.toNat ≤ 0x3FFF) :
    romOffset c r a = bound c.bankBound
      (if c.mbc = .type1 ∧ r.bankingMode = .advanced then r.secondaryRegister.toNat else 0) (c.romSize / 16384) * 16384
        + a.toNat := by
  rw [romOffset, romBank_low c r h, ramBank_eq, romBankOffset_eq_mod, Nat.mod_eq_of_lt (by omega), romBankCount]

theorem romOffset_high (c : Cfg) (r : BankRegs) {a : Addr} (lo : 0x4000 ≤ a.toNat) (hi : a.toNat ≤ 0x7FFF) :
    romOffset c r a = bound c.bankBound
      (if c.mbc = .type1 then r.secondaryRegister.toNat * 32 + r.romBankNumber.toNat else 1) (c.romSize / 16384) * 16384
        + (a.toNat - 0x4000) := by
  have hoff : a.toNat % 0x4000 = a.toNat - 0x4000 := by omega
  rw [romOffset, romBank_high c r lo, romBankOffset_eq_mod, hoff, romBankCount]

theorem ramOffset_eq (c : Cfg) (r : BankRegs) {a : Addr} (h : 0xA000 ≤ a.toNat) :
    ramOffset c r a = bound c.bankBound
      (if c.mbc = .type1 ∧ r.bankingMode = .advanced then r.secondaryRegister.toNat else 0)
        (max 1 (c.ramSize / 8192)) * 8192 + (a.toNat - 0xA000) % min c.ramSize 8192 := by
  rw [ramOffset, ramBank_eq, cramWindowOffset_eq h, ramBankCount, ramWindow]

/-! ### Reachable cartridge RAM (R84, R85) -/

theorem ramReachable_iff {c : Cfg} {r : BankRegs} :
    ramReachable c r = true ↔ c.ramSize ≠ 0 ∧ (c.mbc = .type1 → r.ramEnabled = true) := by
  rw [ramReachable, Bool.and_eq_true, decide_eq_true_eq, Bool.or_eq_true, Bool.not_eq_true', ← Bool.not_eq_true,
    isType1_iff, imp_iff_not_or]

theorem not_ramReachable_iff {c : Cfg} {r : BankRegs} :
    ¬ramReachable c r = true ↔ c.ramSize = 0 ∨ (c.mbc = .type1 ∧ r.ramEnabled = false) := by
  rw [ramReachable_iff, not_and_or, not_not, Classical.not_imp, Bool.not_eq_true]

/-- No read of cartridge RAM records a fault: where there is RAM at all, every offset is inside it. -/
theorem readCram_eq (a : Addr) (s : State) :
    readCram a s = deliver (if ramReachable s.cfg s.bank then byteAt s .cram (ramOffset s.cfg s.bank a) else sentinel)
      s := by
  rcases readCram_cases a s with ⟨hr, h⟩ | ⟨hr, -, h⟩ | ⟨hr, hpast, -⟩
  · rw [h, hr, if_neg Bool.false_ne_true]
  · rw [h, if_pos hr]
  · exact absurd (ramOffset_lt (ramReachable_iff.mp hr).1 s.bank a) (Nat.not_lt.mpr hpast)

/-- No write of cartridge RAM records a fault, for the same reason. -/
theorem writeCram_eq (a : Addr) (d : Byte) (s : State) :
    writeCram a d s =
      complete (if ramReachable s.cfg s.bank then setByte s .cram (ramOffset s.cfg s.bank a) d else s) := by
  rcases writeCram_cases a d s with ⟨hr, h⟩ | ⟨hr, -, h⟩ | ⟨hr, hpast, -⟩
  · rw [h, hr, if_neg Bool.false_ne_true]
  · rw [h, if_pos hr]
  · exact absurd (ramOffset_lt (ramReachable_iff.mp hr).1 s.bank a) (Nat.not_lt.mpr hpast)

/-! ### The Cartridge's operations -/

/-- The guard of R77 never answers under a well-formed configuration. -/
theorem readRom_eq {s : State} (hc : cfgWf s.cfg = true) (a : Addr) :
    readRom a s = deliver (romByte s.cfg (romOffset s.cfg s.bank a)) s := by
  rcases readRom_cases a s with ⟨-, h⟩ | ⟨hpast, -⟩
  · exact h
  · exact absurd (romOffset_lt hc s.bank a) (Nat.not_lt.mpr hpast)

theorem reads_rdRom0 {s : State} (hc : cfgWf s.cfg = true) (hs : s.fault = none) (a : Addr) :
    Reads (.rdRom0 a) s (romByte s.cfg (romOffset s.cfg s.bank a)) :=
  (transact_running hs).trans (congrArg _ (readRom_eq hc a))

theorem reads_rdRomX {s : State} (hc : cfgWf s.cfg = true) (hs : s.fault = none) (a : Addr) :
    Reads (.rdRomX a) s (romByte s.cfg (romOffset s.cfg s.bank a)) := reads_rdRom0 hc hs a

theorem reads_rdCram {s : State} (hs : s.fault = none) (a : Addr) :
    Reads (.rdCram a) s
      (if ramReachable s.cfg s.bank then byteAt s .cram (ramOffset s.cfg s.bank a) else sentinel) :=
  (transact_running hs).trans (congrArg _ (readCram_eq a s))

theorem reads_rdCram_unreachable {s : State} (hs : s.fault = none) (a : Addr)
    (hr : ¬ramReachable s.cfg s.bank = true) : Reads (.rdCram a) s sentinel := by
  have h := reads_rdCram hs a
  rwa [if_neg hr] at h

theorem reads_rdCram_reachable {s : State} (hs : s.fault = none) (a : Addr) (hr : ramReachable s.cfg s.bank = true) :
    Reads (.rdCram a) s (byteAt s .cram (ramOffset s.cfg s.bank a)) := by
  have h := reads_rdCram hs a
  rwa [if_pos hr] at h

theorem discards_wrCram {s : State} (hs : s.fault = none) (a : Addr) (d : Byte)
    (hr : ¬ramReachable s.cfg s.bank = true) : Discards (.wrCram a d) s := by
  refine (transact_running hs).trans (congrArg _ ?_)
  rw [writeCram_eq, if_neg hr, complete]

theorem stores_wrCram {s : State} (hs : s.fault = none) (a : Addr) (d : Byte) (hr : ramReachable s.cfg s.bank = true) :
    Stores (.wrCram a d) s .cram (ramOffset s.cfg s.bank a) d := by
  refine ⟨_, (transact_running hs).trans (congrArg _ ?_), storesByte_setByte ..⟩
  rw [writeCram_eq, if_pos hr]

/-- Settles O35: the low window's row, and R72's offset for it. -/
theorem lowRomWindowRead : Obligations.LowRomWindowRead := by
  intro s a hc hs hi
  refine ⟨(decode_readByte ..).trans (decodeRead_rom0 (.inl rfl) hi),
    fun lo => (decode_readByte ..).trans (decodeRead_rom0 (.inr lo) hi), ?_⟩
  rw [← romOffset_low s.cfg s.bank hi]
  exact reads_rdRom0 hc hs a

/-- Settles O36: the high window's row, and R72's offset for it. -/
theorem highRomWindowRead : Obligations.HighRomWindowRead := by
  intro s overlay a hc hs lo hi
  refine ⟨(decode_readByte ..).trans (decodeRead_romX overlay lo hi), ?_⟩
  rw [← romOffset_high s.cfg s.bank lo hi]
  exact reads_rdRomX hc hs a

/-- Settles O37: what is out of reach reads as the sentinel, and R73's offset is inside the RAM otherwise. -/
theorem cartridgeRamRead : Obligations.CartridgeRamRead := by
  intro s overlay a _ hs lo hi
  refine ⟨(decode_cartridgeRam overlay 0 ⟨lo, hi⟩).1, ?_⟩
  simp only [← ramOffset_eq s.cfg s.bank lo, ← not_ramReachable_iff, ite_not]
  exact reads_rdCram hs a

/-- Settles O38: a write stores at the offset the read of O37 uses, or is discarded where that delivers the sentinel. -/
theorem cartridgeRamWrite : Obligations.CartridgeRamWrite := by
  intro s overlay a d _ hs lo hi
  refine ⟨(decode_cartridgeRam overlay d ⟨lo, hi⟩).2, ?_⟩
  simp only [← ramOffset_eq s.cfg s.bank lo, ← not_ramReachable_iff]
  split
  case isTrue hr => exact discards_wrCram hs a d hr
  case isFalse hr => exact stores_wrCram hs a d (not_not.mp hr)

/-- Settles O39: past the image the guard raises in place of the read; a RAM of any size holds every RAM offset. -/
theorem guardRecordsTheDecodeFailure : Obligations.GuardRecordsTheDecodeFailure := by
  intro s a hs
  refine ⟨fun hpast => ?_, fun hram => ramOffset_lt hram s.bank a⟩
  have hraise : readRom a s = raiseFault (.addressDecodeFailure a (romOffset s.cfg s.bank a) .rom) s :=
    (readRom_cases a s).elim (fun ⟨hin, _⟩ => absurd hin (Nat.not_lt.mpr hpast)) And.right
  exact ⟨(transact_running hs).trans (congrArg _ hraise), (transact_running hs).trans (congrArg _ hraise)⟩

/-! ### The controller's other two writes (R78, R79) -/

/-- `(D & 0x0F) == 0x0A` is `D mod 16 = 10` (R63). -/
theorem ramEnableField_eq (d : Byte) : ramEnableField d = decide (d.toNat % 16 = 0xA) := by
  have h : (d &&& 0x0F).toNat = d.toNat % 16 := by
    rw [BitVec.toNat_and]
    exact Nat.and_two_pow_sub_one_eq_mod d.toNat 4
  rw [ramEnableField, ← h]
  exact Bool.eq_iff_iff.mpr (by simp [← BitVec.toNat_inj])

/-- `D & 0x1F` is `D mod 32` (R63). -/
theorem romBankField_eq (d : Byte) : romBankField d = if d.toNat % 32 = 0 then 1 else d.toNat % 32 := by
  have h : (d &&& 0x1F).toNat = d.toNat % 32 := by
    rw [BitVec.toNat_and]
    exact Nat.and_two_pow_sub_one_eq_mod d.toNat 5
  rw [romBankField, h]

theorem applyRamEnable_eq (c : Cfg) (d : Byte) (r : BankRegs) :
    applyRamEnable c d r =
      if c.mbc = .type1 then { r with ramEnabled := decide (d.toNat % 16 = 0xA) } else r := by
  simp only [applyRamEnable, isType1_iff, ramEnableField_eq]

theorem applyRomBank_eq (c : Cfg) (d : Byte) (r : BankRegs) :
    applyRomBank c d r =
      if c.mbc = .type1 then
        { r with romBankNumber := BitVec.ofNat 5 (bound c.bankBound (romBankField d) (romBankCount c)) }
      else r := by
  simp only [applyRomBank, isType1_iff]

/-- The bounded value fits `rom_bank_number`'s five bits, since `bound` never raises it. -/
theorem toNat_boundedRomBank (c : Cfg) (d : Byte) :
    (BitVec.ofNat 5 (bound c.bankBound (romBankField d) (romBankCount c))).toNat =
      bound c.bankBound (romBankField d) (romBankCount c) := by
  have hle := bound_le c.bankBound (romBankField d) (romBankCount c)
  obtain ⟨-, h31⟩ := romBankField_bounds d
  exact Nat.mod_eq_of_lt (by omega)

theorem setsBank_wrRamen {s : State} (h : s.fault = none) (a : Addr) (d : Byte) :
    SetsBank (.wrRamen a d) s (applyRamEnable s.cfg d s.bank) := transact_running h

theorem setsBank_wrRombank {s : State} (h : s.fault = none) (a : Addr) (d : Byte) :
    SetsBank (.wrRombank a d) s (applyRomBank s.cfg d s.bank) := transact_running h

/-- Settles O31: one row of the write column, whatever the overlay, and R78's comparison in numbers. -/
theorem ramEnableWriteComparesLowNibble : Obligations.RamEnableWriteComparesLowNibble := by
  intro s overlay a d hs hi
  exact ⟨(decode_writeByte ..).trans (decodeWrite_ramEnable d hi), applyRamEnable_eq .. ▸ setsBank_wrRamen hs a d⟩

/-- Settles O32: the bound comes after the replacement of 0, and its value fits the register
(`toNat_boundedRomBank`). -/
theorem romBankWriteReplacesZeroThenBounds : Obligations.RomBankWriteReplacesZeroThenBounds := by
  intro s overlay a d hs lo hi
  have hset := setsBank_wrRombank hs a d
  refine ⟨(decode_writeByte ..).trans (decodeWrite_romBank d lo hi), _, hset, hset, fun hnone => ?_, fun htype => ?_⟩
  · exact (apply_none hnone d s.bank).2.1
  · simp only [applyRomBank_eq, if_pos htype, ← romBankField_eq]
    exact ⟨trivial, toNat_boundedRomBank ..⟩

end Sys2Proof.Machine
end

section
/-! PROOF. What one operation can do: the registers it writes, the bytes it stores, the data it delivers and the fault
it records. The statements about every operation and every step follow from these. -/

namespace Sys2Proof.Machine

/-! ### When an operation has a next state (R124(d)) -/

theorem exec_running (i : Instr) {s : State} (h : s.fault = none) : ∃ t, exec i s = .next t := by
  cases i <;> exact ⟨_, transact_running h⟩

theorem exec_halted (i : Instr) {s : State} {f : BusFault} (h : s.fault = some f) : exec i s = .fault (.halted f) := by
  cases i <;> exact transact_halted h

theorem running_of_exec {i : Instr} {s t : State} (h : exec i s = .next t) : s.fault = none := by
  cases i <;> exact (transact_next.mp h).1

/-- No operation reads the data an earlier one delivered (log entry 5). -/
theorem exec_deliver (i : Instr) (v : Byte) (s : State) : exec i (deliver v s) = exec i s := by
  cases i <;> rfl

/-! ### The registers (R22 to R25, R32 to R36) -/

/-- The state after the register write an operation makes, if any; arrays, fault and response are left as they are. -/
def registerWrite (s : State) : Instr → State
  | .wrRamen _ d => { s with bank := applyRamEnable s.cfg d s.bank }
  | .wrRombank _ d => { s with bank := applyRomBank s.cfg d s.bank }
  | .wrSecondary _ d => { s with bank := applySecondary s.cfg d s.bank }
  | .wrMode _ d => { s with bank := applyMode s.cfg d s.bank }
  | .wrJoyp d => { s with joypSel := joypSelField d }
  | .wrIf d => { s with ifReg := interruptField d }
  | .wrIe d => { s with ieReg := interruptField d }
  | .wrBootflag d => { s with bootOverlayActive := s.bootOverlayActive && !bootOffField d }
  | .setButton n p => { s with btn := putButton s.btn n p }
  | _ => s

/-- Every register, the configuration and the driver's fields are the same in both states. -/
structure AgreeOnRegisters (u t : State) : Prop where
  cfg : t.cfg = u.cfg
  bank : t.bank = u.bank
  bootOverlayActive : t.bootOverlayActive = u.bootOverlayActive
  joypSel : t.joypSel = u.joypSel
  btn : t.btn = u.btn
  ifReg : t.ifReg = u.ifReg
  ieReg : t.ieReg = u.ieReg
  schedule : t.schedule = u.schedule
  draws : t.draws = u.draws

/-- An operation leaves its register write and no other: the accesses to storage keep every register. -/
theorem exec_registers {i : Instr} {s t : State} (h : exec i s = .next t) : AgreeOnRegisters (registerWrite s i) t := by
  cases i <;> obtain ⟨-, rfl⟩ := transact_next.mp h
  case rdRom0 | rdRomX | rdCram | wrCram | rdVram | rdWram | rdEcho | rdOam | rdPpureg | rdHram | viewVram | viewOam
      | wrVram | wrWram | wrEcho | wrOam | wrPpureg | wrHram => constructor <;> simp [registerWrite]
  all_goals constructor <;> rfl

/-- Everything an operation can do to the Bank Register Set: nothing, or, under `Type1`, one of the four control writes
to its one register (R71, R78 to R81). -/
inductive BankWrite (c : Cfg) (r : BankRegs) : Instr → BankRegs → Prop where
  | keeps (i : Instr) : BankWrite c r i r
  | ramEnable (h : c.mbc = .type1) (a : Addr) (d : Byte) :
    BankWrite c r (.wrRamen a d) { r with ramEnabled := ramEnableField d }
  | romBank (h : c.mbc = .type1) (a : Addr) (d : Byte) : BankWrite c r (.wrRombank a d)
      { r with romBankNumber := BitVec.ofNat 5 (bound c.bankBound (romBankField d) (romBankCount c)) }
  | secondary (h : c.mbc = .type1) (hsize : 0x100000 ≤ c.romSize) (a : Addr) (d : Byte) :
    BankWrite c r (.wrSecondary a d) { r with secondaryRegister := secondaryField d }
  | mode (h : c.mbc = .type1) (a : Addr) (d : Byte) : BankWrite c r (.wrMode a d) { r with bankingMode := modeField d }

theorem bankWrite_registerWrite (s : State) (i : Instr) : BankWrite s.cfg s.bank i (registerWrite s i).bank := by
  cases i
  case wrRamen a d =>
    by_cases h : isType1 s.cfg = true <;> simp only [registerWrite, applyRamEnable, h, if_true]
    · exact .ramEnable (isType1_iff.mp h) a d
    · exact .keeps _
  case wrRombank a d =>
    by_cases h : isType1 s.cfg = true <;> simp only [registerWrite, applyRomBank, h, if_true]
    · exact .romBank (isType1_iff.mp h) a d
    · exact .keeps _
  case wrSecondary a d =>
    by_cases h : (isType1 s.cfg && decide (0x100000 ≤ s.cfg.romSize)) = true <;>
      simp only [registerWrite, applySecondary, h, if_true]
    · obtain ⟨htype, hsize⟩ := Bool.and_eq_true_iff.mp h
      exact .secondary (isType1_iff.mp htype) (of_decide_eq_true hsize) a d
    · exact .keeps _
  case wrMode a d =>
    by_cases h : isType1 s.cfg = true <;> simp only [registerWrite, applyMode, h, if_true]
    · exact .mode (isType1_iff.mp h) a d
    · exact .keeps _
  all_goals exact .keeps _

theorem exec_bankWrite {i : Instr} {s t : State} (h : exec i s = .next t) : BankWrite s.cfg s.bank i t.bank :=
  (exec_registers h).bank ▸ bankWrite_registerWrite s i

section
variable {c : Cfg} {r r' : BankRegs} {i : Instr}

theorem BankWrite.ramEnabled_ne (h : BankWrite c r i r') (hne : r'.ramEnabled ≠ r.ramEnabled) :
    c.mbc = .type1 ∧ ∃ a d, i = .wrRamen a d := by
  cases h
  case ramEnable h a d => exact ⟨h, a, d, rfl⟩
  all_goals exact absurd rfl hne

theorem BankWrite.romBankNumber_ne (h : BankWrite c r i r') (hne : r'.romBankNumber ≠ r.romBankNumber) :
    c.mbc = .type1 ∧ ∃ a d, i = .wrRombank a d := by
  cases h
  case romBank h a d => exact ⟨h, a, d, rfl⟩
  all_goals exact absurd rfl hne

theorem BankWrite.secondaryRegister_ne (h : BankWrite c r i r') (hne : r'.secondaryRegister ≠ r.secondaryRegister) :
    c.mbc = .type1 ∧ 0x100000 ≤ c.romSize ∧ ∃ a d, i = .wrSecondary a d := by
  cases h
  case secondary h hsize a d => exact ⟨h, hsize, a, d, rfl⟩
  all_goals exact absurd rfl hne

theorem BankWrite.bankingMode_ne (h : BankWrite c r i r') (hne : r'.bankingMode ≠ r.bankingMode) :
    c.mbc = .type1 ∧ ∃ a d, i = .wrMode a d := by
  cases h
  case mode h a d => exact ⟨h, a, d, rfl⟩
  all_goals exact absurd rfl hne

/-- R26: under `None` no operation changes the Bank Register Set. -/
theorem BankWrite.of_none (h : BankWrite c r i r') (hnone : c.mbc = .none) : r' = r := by
  cases h
  case keeps => rfl
  all_goals cases hnone.symm.trans ‹c.mbc = .type1›

/-- R23: what WR_ROMBANK stores is the bound of a value of 1 to 31. -/
theorem BankWrite.romBankLegal (h : BankWrite c r i r') (hr : RomBankLegal c r.romBankNumber) :
    RomBankLegal c r'.romBankNumber := by
  cases h
  case romBank a d =>
    obtain ⟨h1, h31⟩ := romBankField_bounds d
    exact .inr ⟨romBankField d, h1, h31, toNat_boundedRomBank c d⟩
  all_goals exact hr

end

/-- Only 0x01 ends the overlay (R109; the spec's own decision D11). -/
theorem bootOffField_iff {d : Byte} : bootOffField d = true ↔ d = 0x01 := beq_iff_eq

section
variable {s : State} {i : Instr}

/-- R109: the overlay flag changes by WR_BOOTFLAG with 0x01 alone, and only from active to not active. -/
theorem registerWrite_bootOverlayActive_ne (h : (registerWrite s i).bootOverlayActive ≠ s.bootOverlayActive) :
    i = .wrBootflag 0x01 ∧ s.bootOverlayActive = true ∧ (registerWrite s i).bootOverlayActive = false := by
  cases i
  case wrBootflag d =>
    have hd : bootOffField d = true := by
      by_contra hd
      exact h (by simp only [registerWrite, Bool.not_eq_true _ ▸ hd, Bool.not_false, Bool.and_true])
    obtain rfl : d = 0x01 := bootOffField_iff.mp hd
    have hoff : (registerWrite s (.wrBootflag 0x01)).bootOverlayActive = false := Bool.and_false _
    exact ⟨rfl, Bool.eq_true_of_not_eq_false fun e => h (hoff.trans e.symm), hoff⟩
  all_goals exact absurd rfl h

theorem registerWrite_joypSel_ne (h : (registerWrite s i).joypSel ≠ s.joypSel) : ∃ d, i = .wrJoyp d := by
  cases i
  case wrJoyp d => exact ⟨d, rfl⟩
  all_goals exact absurd rfl h

theorem registerWrite_btn_ne (h : (registerWrite s i).btn ≠ s.btn) : ∃ n p, i = .setButton n p := by
  cases i
  case setButton n p => exact ⟨n, p, rfl⟩
  all_goals exact absurd rfl h

theorem registerWrite_ifReg_ne (h : (registerWrite s i).ifReg ≠ s.ifReg) : ∃ d, i = .wrIf d := by
  cases i
  case wrIf d => exact ⟨d, rfl⟩
  all_goals exact absurd rfl h

theorem registerWrite_ieReg_ne (h : (registerWrite s i).ieReg ≠ s.ieReg) : ∃ d, i = .wrIe d := by
  cases i
  case wrIe d => exact ⟨d, rfl⟩
  all_goals exact absurd rfl h

theorem registerWrite_schedule (s : State) (i : Instr) : (registerWrite s i).schedule = s.schedule := by cases i <;> rfl

theorem registerWrite_draws (s : State) (i : Instr) : (registerWrite s i).draws = s.draws := by cases i <;> rfl

end

/-- R131: an operation leaves an overlay that is active only where it was active before. -/
theorem exec_bootOverlayActive {i : Instr} {s t : State} (h : exec i s = .next t) (ht : t.bootOverlayActive = true) :
    s.bootOverlayActive = true := by
  by_contra hs
  rw [(exec_registers h).bootOverlayActive] at ht
  exact hs (registerWrite_bootOverlayActive_ne fun e => hs (e.symm.trans ht)).2.1

/-- Settles O25: an operation's register write is the only change of registers (`exec_registers`), and each register has
one operation that writes it. -/
theorem eachRegisterHasItsOneWriter : Obligations.EachRegisterHasItsOneWriter := by
  intro i s t h
  have hregs := exec_registers h
  have hbank := exec_bankWrite h
  refine ⟨hbank.ramEnabled_ne, hbank.romBankNumber_ne, hbank.secondaryRegister_ne, hbank.bankingMode_ne, ?_, ?_, ?_, ?_,
    ?_, exec_cfg h, hregs.schedule.trans (registerWrite_schedule s i), hregs.draws.trans (registerWrite_draws s i)⟩
  · rw [hregs.bootOverlayActive]
    exact registerWrite_bootOverlayActive_ne
  · rw [hregs.joypSel]
    exact registerWrite_joypSel_ne
  · rw [hregs.btn]
    exact registerWrite_btn_ne
  · rw [hregs.ifReg]
    exact registerWrite_ifReg_ne
  · rw [hregs.ieReg]
    exact registerWrite_ieReg_ne

/-! ### The arrays (R27 to R31, R37) -/

/-- R85: only a reachable cartridge RAM changes. -/
theorem ramReachable_of_cram_ne {i : Instr} {s t : State} {off : Nat} (h : exec i s = .next t)
    (hne : byteAt t .cram off ≠ byteAt s .cram off) : ramReachable s.cfg s.bank = true := by
  have hw := writtenRam_of_byteAt_ne h hne
  cases i
  case wrCram a d =>
    obtain ⟨-, rfl⟩ := transact_next.mp h
    exact (byteAt_writeCram_ne hne).2
  all_goals simp [writtenRam] at hw

/-- Settles O26: a changed byte lies in the array the operation stores to, which names the operation. -/
theorem eachArrayHasItsWriters : Obligations.EachArrayHasItsWriters := by
  intro i s t r off h hne
  have hw := writtenRam_of_byteAt_ne h hne
  cases i
  case wrCram a d =>
    obtain rfl := Option.some.inj hw
    exact ⟨(ramReachable_iff.mp (ramReachable_of_cram_ne h hne)).2, a, d, rfl⟩
  case wrVram a d | wrOam a d | wrPpureg a d | wrHram a d =>
    obtain rfl := Option.some.inj hw
    exact ⟨a, d, rfl⟩
  case wrWram a d =>
    obtain rfl := Option.some.inj hw
    exact .inl ⟨a, d, rfl⟩
  case wrEcho a d =>
    obtain rfl := Option.some.inj hw
    exact .inr ⟨a, d, rfl⟩
  all_goals simp [writtenRam] at hw

/-- Every array of `t` is in the canonical form for the configuration `c`. -/
def ArraysCanonical (c : Cfg) (t : State) : Prop := ∀ r, memWf (fillOf c r) (ramLength c r) (cellsOf t r) = true

theorem arraysCanonical_congr {c : Cfg} {s t : State} (h : ArraysCanonical c s)
    (hcells : ∀ r, cellsOf t r = cellsOf s r) : ArraysCanonical c t := fun r => hcells r ▸ h r

theorem arraysCanonical_writeSegment {s : State} (h : ArraysCanonical s.cfg s) (g : Segment) (o : Nat) (v : Byte) :
    ArraysCanonical s.cfg (writeSegment g o v s) := by
  rcases writeSegment_cases g o v s with ⟨ho, e⟩ | ⟨-, e⟩ <;> rw [e]
  · exact arraysCanonical_congr (arrays_setByte v ho h) (cellsOf_complete _)
  · exact arraysCanonical_congr h (cellsOf_raiseFault _ s)

theorem arraysCanonical_writeCram {s : State} (h : ArraysCanonical s.cfg s) (a : Addr) (d : Byte) :
    ArraysCanonical s.cfg (writeCram a d s) := by
  rcases writeCram_cases a d s with ⟨-, e⟩ | ⟨-, ho, e⟩ | ⟨-, -, e⟩ <;> rw [e]
  · exact arraysCanonical_congr h (cellsOf_complete s)
  · exact arraysCanonical_congr (arrays_setByte d ho h) (cellsOf_complete _)
  · exact arraysCanonical_congr h (cellsOf_raiseFault _ s)

theorem exec_arraysCanonical {i : Instr} {s t : State} (h : exec i s = .next t) (hs : ArraysCanonical s.cfg s) :
    ArraysCanonical s.cfg t := by
  cases i <;> obtain ⟨-, rfl⟩ := transact_next.mp h
  case wrCram a d => exact arraysCanonical_writeCram hs a d
  case wrVram | wrWram | wrEcho | wrOam | wrPpureg | wrHram => exact arraysCanonical_writeSegment hs _ _ _
  all_goals exact arraysCanonical_congr hs fun r => by simp

/-! ### The fault (R38, R121 to R123) -/

theorem readSegment_fault {g : Segment} {o : Nat} {s : State} (ho : o < segmentLength g) :
    (readSegment g o s).fault = s.fault := by rw [readSegment_inside s ho, deliver_fault]

theorem writeSegment_fault {g : Segment} {o : Nat} {v : Byte} {s : State} (ho : o < segmentLength g) :
    (writeSegment g o v s).fault = s.fault := by
  rw [writeSegment_inside v s ho, complete_fault, setByte_fault]

theorem readCram_fault (a : Addr) (s : State) : (readCram a s).fault = s.fault := by rw [readCram_eq, deliver_fault]

theorem writeCram_fault (a : Addr) (d : Byte) (s : State) : (writeCram a d s).fault = s.fault := by
  rw [writeCram_eq, complete_fault, apply_ite State.fault, setByte_fault, ite_self]

theorem readRom_fault {s : State} (hc : cfgWf s.cfg = true) (a : Addr) : (readRom a s).fault = s.fault := by
  rw [readRom_eq hc, deliver_fault]

/-- A row's addresses give offsets below the row's length. -/
theorem toNat_sub_base_lt {a b : Addr} {last n : Nat} (h : inRange b.toNat last a = true) (hn : last < b.toNat + n) :
    (a - b).toNat < n := by
  obtain ⟨lo, hi⟩ := inRange_iff.mp h
  rw [toNat_sub_base lo]
  omega

/-- R44, R76, R121: under a well-formed configuration no operation whose address lies in its row records a fault, but
VIEW_OAM past its segment. -/
theorem exec_fault {i : Instr} {s t : State} (hc : cfgWf s.cfg = true) (hi : i.wf = true) (h : exec i s = .next t) :
    t.fault = none ∨ ∃ o : BitVec 13, i = .viewOam o ∧ 160 ≤ o.toNat ∧
      t.fault = some (.segmentBoundsViolation .oam o.toNat) := by
  cases i <;> obtain ⟨hs, rfl⟩ := transact_next.mp h
  case viewOam o =>
    rcases readSegment_cases .oam o.toNat s with ⟨-, e⟩ | ⟨hpast, e⟩ <;> rw [e]
    · exact .inl hs
    · exact .inr ⟨o, rfl, hpast, rfl⟩
  all_goals left
  case rdRom0 | rdRomX => exact (readRom_fault hc _).trans hs
  case rdCram => exact (readCram_fault ..).trans hs
  case wrCram => exact (writeCram_fault ..).trans hs
  case viewVram o => exact (readSegment_fault o.isLt).trans hs
  case rdVram | rdWram | rdEcho | rdOam | rdPpureg | rdHram =>
    refine Eq.trans (readSegment_fault ?_) hs
    exact toNat_sub_base_lt hi (by decide)
  case wrVram | wrWram | wrEcho | wrOam | wrPpureg | wrHram =>
    refine Eq.trans (writeSegment_fault ?_) hs
    exact toNat_sub_base_lt hi (by decide)
  all_goals exact hs

/-! ### The data (R49, R59) -/

/-- A read ends by delivering a byte or by recording a fault, and changes nothing else. -/
def EndsRead (s t : State) : Prop := (∃ v, t = deliver v s) ∨ ∃ f, t = raiseFault f s

theorem endsRead_readSegment (g : Segment) (o : Nat) (s : State) : EndsRead s (readSegment g o s) :=
  (readSegment_cases g o s).imp (fun h => ⟨_, h.2⟩) fun h => ⟨_, h.2⟩

theorem endsRead_readRom (a : Addr) (s : State) : EndsRead s (readRom a s) :=
  (readRom_cases a s).imp (fun h => ⟨_, h.2⟩) fun h => ⟨_, h.2⟩

/-- Every operation of the read column ends as a read. -/
theorem exec_decodeRead {overlay : Bool} {a : Addr} {s t : State} (h : exec (decodeRead overlay a) s = .next t) :
    EndsRead s t := by
  unfold decodeRead at h
  cases hr : regionOf a <;> simp only [hr] at h
  case bootOverlay =>
    cases overlay <;> obtain ⟨-, rfl⟩ := transact_next.mp h
    · exact endsRead_readRom a s
    · exact .inl ⟨_, rfl⟩
  all_goals obtain ⟨-, rfl⟩ := transact_next.mp h
  case rom0RamEnable | rom0RomBank | romXSecondary | romXMode => exact endsRead_readRom a s
  case cartridgeRam => exact .inl ⟨_, readCram_eq a s⟩
  case video | work | echo | objectAttribute | pictureUnit | highRam => exact endsRead_readSegment ..
  all_goals exact .inl ⟨_, rfl⟩

theorem writeSegment_response (g : Segment) (o : Nat) (v : Byte) (s : State) :
    (writeSegment g o v s).response = none := by
  rcases writeSegment_cases g o v s with ⟨-, e⟩ | ⟨-, e⟩ <;> rw [e] <;> rfl

/-- A write delivers no data. -/
theorem exec_decodeWrite_response {a : Addr} {d : Byte} {s t : State} (h : exec (decodeWrite a d) s = .next t) :
    t.response = none := by
  unfold decodeWrite at h
  cases hr : regionOf a <;> simp only [hr] at h <;> obtain ⟨-, rfl⟩ := transact_next.mp h
  case cartridgeRam => rw [writeCram_eq, complete_response]
  case video | work | echo | objectAttribute | pictureUnit | highRam => exact writeSegment_response ..
  all_goals rfl

/-- The read column holds no view operation: its words are bus words. -/
theorem decodeRead_ne_viewOam (overlay : Bool) (a : Addr) (o : BitVec 13) : decodeRead overlay a ≠ .viewOam o := by
  intro h
  have henc := encode_decodeRead overlay a
  rw [h] at henc
  cases henc

theorem decodeWrite_ne_viewOam (a : Addr) (d : Byte) (o : BitVec 13) : decodeWrite a d ≠ .viewOam o := by
  intro h
  have henc := encode_decodeWrite a d
  rw [h] at henc
  cases henc

theorem exec_decodeRead_fault {overlay : Bool} {a : Addr} {s t : State} (hc : cfgWf s.cfg = true)
    (h : exec (decodeRead overlay a) s = .next t) : t.fault = none :=
  (exec_fault hc (decodeRead_wf overlay a) h).resolve_right fun ⟨o, ho, _⟩ => decodeRead_ne_viewOam overlay a o ho

theorem exec_decodeWrite_fault {a : Addr} {d : Byte} {s t : State} (hc : cfgWf s.cfg = true)
    (h : exec (decodeWrite a d) s = .next t) : t.fault = none :=
  (exec_fault hc (decodeWrite_wf a d) h).resolve_right fun ⟨o, ho, _⟩ => decodeWrite_ne_viewOam a d o ho

/-- R44, R49: under a well-formed configuration a bus read delivers one byte and changes nothing else. -/
theorem reads_decodeRead (overlay : Bool) (a : Addr) {s : State} (hc : cfgWf s.cfg = true) (hs : s.fault = none) :
    ∃ v, Reads (decodeRead overlay a) s v := by
  obtain ⟨t, ht⟩ := exec_running (decodeRead overlay a) hs
  rcases exec_decodeRead ht with ⟨v, rfl⟩ | ⟨f, rfl⟩
  · exact ⟨v, ht⟩
  · cases exec_decodeRead_fault hc ht

/-- Settles O22: `reads_decodeRead`. -/
theorem busReadsChangeNothing : Obligations.BusReadsChangeNothing := fun _ overlay a => reads_decodeRead overlay a

/-- Settles O23: a read that recorded a fault has no second read, and one that delivered left nothing changed that an
operation reads (`exec_deliver`). -/
theorem repeatedReadsAgree : Obligations.RepeatedReadsAgree := by
  intro s t u overlay a ht hu
  rcases exec_decodeRead ht with ⟨v, rfl⟩ | ⟨f, rfl⟩
  · rw [exec_deliver, ht] at hu
    cases hu
    rfl
  · cases running_of_exec hu

/-! ### What the controller's operations read (R70) -/

/-- Two configurations agree on what the controller reads of them. -/
structure AgreeOnController (c₁ c₂ : Cfg) : Prop where
  mbc : c₁.mbc = c₂.mbc
  romSize : c₁.romSize = c₂.romSize
  ramSize : c₁.ramSize = c₂.ramSize
  bankBound : c₁.bankBound = c₂.bankBound

section
variable {c₁ c₂ : Cfg} (h : AgreeOnController c₁ c₂) (r : BankRegs) (a : Addr) (d : Byte)
include h

theorem AgreeOnController.isType1_eq : isType1 c₁ = isType1 c₂ := by rw [isType1, h.mbc, isType1]

theorem AgreeOnController.romOffset_eq : romOffset c₁ r a = romOffset c₂ r a := by
  rw [romOffset, romBank, isAdvanced, romBankCount, h.isType1_eq, h.romSize, h.bankBound]
  rfl

theorem AgreeOnController.ramOffset_eq : ramOffset c₁ r a = ramOffset c₂ r a := by
  rw [ramOffset, ramBank, isAdvanced, ramBankCount, ramWindow, h.isType1_eq, h.ramSize, h.bankBound]
  rfl

theorem AgreeOnController.ramReachable_eq : ramReachable c₁ r = ramReachable c₂ r := by
  rw [ramReachable, h.isType1_eq, h.ramSize]
  rfl

theorem AgreeOnController.applyRamEnable_eq : applyRamEnable c₁ d r = applyRamEnable c₂ d r := by
  rw [applyRamEnable, h.isType1_eq]
  rfl

theorem AgreeOnController.applyRomBank_eq : applyRomBank c₁ d r = applyRomBank c₂ d r := by
  rw [applyRomBank, romBankCount, h.isType1_eq, h.romSize, h.bankBound]
  rfl

theorem AgreeOnController.applySecondary_eq : applySecondary c₁ d r = applySecondary c₂ d r := by
  rw [applySecondary, h.isType1_eq, h.romSize]
  rfl

theorem AgreeOnController.applyMode_eq : applyMode c₁ d r = applyMode c₂ d r := by
  rw [applyMode, h.isType1_eq]
  rfl

end

/-- What a ROM read delivers is a function of the ROM's size, its offset and the image. -/
theorem readRom_response (a : Addr) (s : State) :
    (readRom a s).response =
      if romOffset s.cfg s.bank a < s.cfg.romSize then some (romByte s.cfg (romOffset s.cfg s.bank a)) else none := by
  rw [readRom, apply_ite State.response, deliver_response, raiseFault_response]

theorem AgreeOnController.readRom_response_eq {s₁ s₂ : State} (h : AgreeOnController s₁.cfg s₂.cfg)
    (hbank : s₁.bank = s₂.bank) (hrom : s₁.cfg.rom = s₂.cfg.rom) (a : Addr) :
    (readRom a s₁).response = (readRom a s₂).response := by
  simp only [readRom_response, hbank, h.romOffset_eq, h.romSize, romByte, hrom]

theorem AgreeOnController.readCram_response_eq {s₁ s₂ : State} (h : AgreeOnController s₁.cfg s₂.cfg)
    (hbank : s₁.bank = s₂.bank) (hcram : ∀ off, byteAt s₁ .cram off = byteAt s₂ .cram off) (a : Addr) :
    (readCram a s₁).response = (readCram a s₂).response := by
  simp only [readCram_eq, deliver_response, hbank, h.ramReachable_eq, h.ramOffset_eq, hcram]

/-- Settles O30: each translation, access and control write reads the Bank Register Set and the four fields of
`AgreeOnController` alone. -/
theorem cartridgeReadsOnlyControllerState : Obligations.CartridgeReadsOnlyControllerState := by
  intro s₁ s₂ t₁ t₂ a d hbank hmbc hrom hram hbound
  have hagree : AgreeOnController s₁.cfg s₂.cfg := ⟨hmbc, hrom, hram, hbound⟩
  refine ⟨hbank ▸ hagree.romOffset_eq .., hbank ▸ hagree.ramOffset_eq .., ?_, ?_, ?_, ?_, ?_, ?_, ?_⟩
  case refine_1 | refine_2 =>
    intro himage h₁ h₂
    obtain ⟨-, rfl⟩ := transact_next.mp h₁
    obtain ⟨-, rfl⟩ := transact_next.mp h₂
    exact hagree.readRom_response_eq hbank himage a
  case refine_3 =>
    intro hbytes h₁ h₂
    obtain ⟨-, rfl⟩ := transact_next.mp h₁
    obtain ⟨-, rfl⟩ := transact_next.mp h₂
    exact hagree.readCram_response_eq hbank hbytes a
  all_goals
    intro h₁ h₂
    rw [(exec_registers h₁).bank, (exec_registers h₂).bank]
    simp only [registerWrite, hbank]
  case refine_4 => exact hagree.applyRamEnable_eq ..
  case refine_5 => exact hagree.applyRomBank_eq ..
  case refine_6 => exact hagree.applySecondary_eq ..
  case refine_7 => exact hagree.applyMode_eq ..

end Sys2Proof.Machine
end

section
/-! PROOF. What every step keeps (R26, R32, R121, R124(d), R131, R132), from what every operation keeps. -/

namespace Sys2Proof.Machine

/-! ### One step -/

theorem step_running {s : State} (hs : s.fault = none) :
    step s = runTaken (takeTransaction s).1 (takeTransaction s).2 := by simp only [step, runNext, hs]

theorem step_scheduled {s : State} (hs : s.fault = none) {x : Transaction} {rest : List Transaction}
    (h : s.schedule = x :: rest) : step s = exec (decode s.bootOverlayActive x) { s with schedule := rest } := by
  have htake : takeTransaction s = (some x, { s with schedule := rest }) := by rw [takeTransaction, h]
  rw [step_running hs, htake]
  rfl

theorem step_unscheduled {s : State} (hs : s.fault = none) (h : s.schedule = []) :
    step s = runTaken (Config.driver s.draws) { s with draws := s.draws + 1 } := by
  have htake : takeTransaction s = (Config.driver s.draws, { s with draws := s.draws + 1 }) := by
    rw [takeTransaction, h]
  rw [step_running hs, htake]

/-- Settles O1: the two answers of `takeTransaction`, and what is run of each. -/
theorem stepRunsDecodedTransaction : Obligations.StepRunsDecodedTransaction := by
  refine fun s hs => ⟨fun x rest h => step_scheduled hs h, fun h => (step_unscheduled hs h).trans ?_⟩
  cases Config.driver s.draws <;> rfl

/-- Settles O17: the fault is looked at before anything else, by a step and by every operation (`exec_halted`). -/
theorem haltedSessionHasNoStep : Obligations.HaltedSessionHasNoStep := by
  refine fun s f hf => ⟨?_, fun i => exec_halted i hf⟩
  rw [step, runNext, hf]

/-- A property that taking a transaction, idling and every operation of a decoded word keep is one that steps keep. -/
theorem step_keeps {P : State → Prop} (htake : ∀ s, P s → P (takeTransaction s).2) (hidle : ∀ s, P s → P (idle s))
    (hexec : ∀ i s t, i.wf = true → P s → exec i s = .next t → P t) {s t : State} (hs : P s) (h : step s = .next t) :
    P t := by
  obtain ⟨-, ⟨-, rfl⟩ | ⟨x, -, hx⟩⟩ := step_next h
  · exact hidle _ (htake s hs)
  · exact hexec _ _ _ (decode_wf s.bootOverlayActive x) (htake s hs) hx

/-- Settles O27: no operation activates the overlay (`exec_bootOverlayActive`). -/
theorem overlayNeverComesBack : Obligations.OverlayNeverComesBack := by
  intro s t h hs
  refine step_keeps (P := fun u => u.bootOverlayActive = false) (fun u hu => ?_) (fun u hu => hu)
    (fun i u v _ hu hv => ?_) hs h
  · rw [takeTransaction_bootOverlayActive, hu]
  · exact Bool.eq_false_of_not_eq_true fun e => Bool.false_ne_true (hu.symm.trans (exec_bootOverlayActive hv e))

/-- Settles O28: under `None` each of the four control writes keeps the set (`BankWrite.of_none`). -/
theorem noneVariantKeepsTheBankRegisters : Obligations.NoneVariantKeepsTheBankRegisters := by
  intro s t hnone h
  refine (step_keeps (P := fun u => u.cfg.mbc = .none ∧ u.bank = s.bank) (fun u hu => ?_) (fun u hu => hu)
    (fun i u v _ hu hv => ?_) ⟨hnone, rfl⟩ h).2
  · rwa [takeTransaction_cfg, takeTransaction_bank]
  · obtain ⟨hmbc, hbank⟩ := hu
    exact ⟨by rw [exec_cfg hv, hmbc], ((exec_bankWrite hv).of_none hmbc).trans hbank⟩

/-! ### The invariant -/

/-- The invariant speaks of the configuration, the arrays, the Bank Register Set, the overlay flag and the fault. -/
theorem SessionInv.congr {s t : State} (h : SessionInv s) (hcfg : t.cfg = s.cfg)
    (hcells : ∀ r, cellsOf t r = cellsOf s r) (hbank : t.bank = s.bank)
    (hoverlay : t.bootOverlayActive = s.bootOverlayActive) (hfault : t.fault = s.fault) : SessionInv t where
  config := hcfg ▸ h.config
  arrays := hcfg ▸ arraysCanonical_congr h.arrays hcells
  noneKeepsReset := by rw [hcfg, hbank]; exact h.noneKeepsReset
  smallRomSecondary := by rw [hcfg, hbank]; exact h.smallRomSecondary
  romBankNumber := by rw [hcfg, hbank]; exact h.romBankNumber
  overlay := by rw [hcfg, hoverlay]; exact h.overlay
  faultKind := by rw [hfault]; exact h.faultKind

theorem sessionInv_takeTransaction {s : State} (h : SessionInv s) : SessionInv (takeTransaction s).2 :=
  h.congr (takeTransaction_cfg s) (cellsOf_takeTransaction s) (takeTransaction_bank s)
    (takeTransaction_bootOverlayActive s) (takeTransaction_fault s)

theorem sessionInv_idle {s : State} (h : SessionInv s) : SessionInv (idle s) := h.congr rfl (cellsOf_idle s) rfl rfl rfl

/-- Every operation of a decoded word keeps the invariant. -/
theorem exec_sessionInv {i : Instr} {s t : State} (hi : i.wf = true) (hs : SessionInv s) (h : exec i s = .next t) :
    SessionInv t where
  config := by rw [exec_cfg h]; exact hs.config
  arrays := by rw [exec_cfg h]; exact exec_arraysCanonical h hs.arrays
  noneKeepsReset hnone := by
    rw [exec_cfg h] at hnone
    exact ((exec_bankWrite h).of_none hnone).trans (hs.noneKeepsReset hnone)
  smallRomSecondary hsmall := by
    rw [exec_cfg h] at hsmall
    by_contra hne
    have hzero := hs.smallRomSecondary hsmall
    obtain ⟨-, hlarge, -⟩ := (exec_bankWrite h).secondaryRegister_ne (fun e => hne (e.trans hzero))
    omega
  romBankNumber := by rw [exec_cfg h]; exact (exec_bankWrite h).romBankLegal hs.romBankNumber
  overlay ht := by rw [exec_cfg h]; exact hs.overlay (exec_bootOverlayActive h ht)
  faultKind f hf := by
    rcases exec_fault hs.config hi h with hnone | ⟨o, -, hpast, hsome⟩
    · cases hnone.symm.trans hf
    · exact ⟨o.toNat, hpast, o.isLt, Option.some.inj (hf.symm.trans hsome)⟩

/-- Settles O15: a step takes a transaction or idles, which the invariant does not see, and every operation of a decoded
word keeps the invariant. -/
theorem stepKeepsTheInvariant : Obligations.StepKeepsTheInvariant := fun _ _ hs h =>
  step_keeps (P := SessionInv) (fun _ => sessionInv_takeTransaction) (fun _ => sessionInv_idle)
    (fun _ _ _ => exec_sessionInv) hs h

/-- A bus word runs as its column of the decode table says. -/
theorem decode_bus (overlay : Bool) (w : BitVec 25) :
    decode overlay (.bus w) = if busW w then decodeWrite (busA w) (busD w) else decodeRead overlay (busA w) := rfl

/-- Settles O18: a read delivers (`reads_decodeRead`), a write delivers nothing, and neither records a fault under the
invariant's configuration. -/
theorem everyBusTransactionCompletes : Obligations.EveryBusTransactionCompletes := by
  intro s w rest hinv hs hsched
  rw [step_scheduled hs hsched, decode_bus]
  have hc : cfgWf ({ s with schedule := rest } : State).cfg = true := hinv.config
  cases hw : busW w
  case false =>
    obtain ⟨v, hv⟩ := reads_decodeRead s.bootOverlayActive (busA w) hc hs
    exact ⟨_, hv, hs, rfl, fun _ => ⟨v, rfl⟩, nofun⟩
  case true =>
    obtain ⟨t, ht⟩ := exec_running (decodeWrite (busA w) (busD w)) (s := { s with schedule := rest }) hs
    refine ⟨t, ht, exec_decodeWrite_fault hc ht, ?_, nofun, fun _ => exec_decodeWrite_response ht⟩
    exact (exec_registers ht).schedule.trans (registerWrite_schedule ..)

end Sys2Proof.Machine
end

section
/-! PROOF. R6 to R9, R119, R126, R136: which configurations have a session, the state it starts in, and the save-RAM
read-out given back. -/

namespace Sys2Proof.Machine

/-! ### The constraints of R7 to R10 -/

theorem ramSizeOk_iff {n : Nat} : ramSizeOk n = true ↔ n = 0 ∨ n = 2048 ∨ ∃ k, 1 ≤ k ∧ n = 8192 * k := by
  have hmultiple : (0 < n ∧ n % 8192 = 0) ↔ ∃ k, 1 ≤ k ∧ n = 8192 * k :=
    ⟨fun h => ⟨n / 8192, by omega, by omega⟩, fun ⟨k, hk, hn⟩ => by omega⟩
  simp only [ramSizeOk, Bool.or_eq_true, Bool.and_eq_true, beq_iff_eq, decide_eq_true_eq, hmultiple, or_assoc]

theorem cramInitOk_iff {c : Cfg} :
    cramInitOk c = true ↔ ∀ m, c.cramInit = some m → memWf zeroFill c.ramSize m = true := by
  unfold cramInitOk
  cases c.cramInit <;> simp

theorem cfgWf_iff {c : Cfg} : cfgWf c = true ↔
    0 < c.romSize ∧ 16384 ∣ c.romSize ∧ memWf zeroFill c.romSize c.rom = true ∧
      (c.ramSize = 0 ∨ c.ramSize = 2048 ∨ ∃ k, 1 ≤ k ∧ c.ramSize = 8192 * k) ∧
      (∀ m, c.cramInit = some m → memWf zeroFill c.ramSize m = true) ∧
      (c.bootPresent = true → c.bootLen ≤ 256 ∧ memWf zeroFill c.bootLen c.boot = true) := by
  simp only [cfgWf, Bool.and_eq_true, Bool.or_eq_true, Bool.not_eq_true', ← Bool.not_eq_true, decide_eq_true_eq,
    beq_iff_eq, ramSizeOk_iff, cramInitOk_iff, Nat.dvd_iff_mod_eq_zero, imp_iff_not_or, and_assoc]

theorem sessionStart_wf {c : Cfg} (h : cfgWf c = true) : sessionStart c = .next (State.ofCfg c) := if_pos h

/-- A session start answers a state exactly for a well-formed configuration. -/
theorem sessionStart_next {c : Cfg} {t : State} (h : sessionStart c = .next t) :
    cfgWf c = true ∧ t = State.ofCfg c := by
  unfold sessionStart at h
  split at h
  case isTrue hc => exact ⟨hc, (Host.Outcome.next.inj h).symm⟩
  case isFalse => cases h

/-- Settles O9: the listed constraints are `cfgWf` (`cfgWf_iff`), which a session start tests. -/
theorem sessionExistsOnlyForWellFormedConfig : Obligations.SessionExistsOnlyForWellFormedConfig := by
  intro c
  rw [← cfgWf_iff]
  by_cases h : cfgWf c = true
  · exact .inl ⟨h, sessionStart_wf h⟩
  · exact .inr ⟨h, if_neg h⟩

/-! ### The state at session start (R136) -/

theorem byteAt_ofCfg_seg (c : Cfg) (g : Segment) (off : Nat) : byteAt (State.ofCfg c) (.seg g) off = 0 := by
  cases g <;> rfl

theorem byteAt_ofCfg_cram (c : Cfg) (off : Nat) : byteAt (State.ofCfg c) .cram off = cramFill c off := rfl

theorem cramFill_some {c : Cfg} {m : Mem} (h : c.cramInit = some m) : cramFill c = memRead zeroFill m := by
  rw [cramFill, h]

theorem cramFill_none {c : Cfg} (h : c.cramInit = none) : cramFill c = Config.cramDraw := by rw [cramFill, h]

/-- Settles O10: the state is `State.ofCfg`, whose arrays list nothing and so read as their fill. -/
theorem sessionStartLeavesResetValues : Obligations.SessionStartLeavesResetValues := by
  refine fun c hc => ⟨_, sessionStart_wf hc, rfl, rfl, rfl, rfl, rfl, byteAt_ofCfg_seg c, fun m hm off => ?_,
    fun hm off => ?_, rfl, rfl, fun n => ?_, rfl, rfl, rfl⟩
  · rw [byteAt_ofCfg_cram, cramFill_some hm]
  · rw [byteAt_ofCfg_cram, cramFill_none hm]
  · cases n <;> rfl

theorem sessionInv_ofCfg {c : Cfg} (h : cfgWf c = true) : SessionInv (State.ofCfg c) where
  config := h
  arrays := arrays_ofCfg c
  noneKeepsReset _ := rfl
  smallRomSecondary _ := rfl
  romBankNumber := .inl rfl
  overlay ht := ht
  faultKind _ := nofun

/-- Settles O14: a session starts in `State.ofCfg` of a well-formed configuration. -/
theorem everySessionStartMeetsTheInvariant : Obligations.EverySessionStartMeetsTheInvariant := by
  intro c t h
  obtain ⟨hc, rfl⟩ := sessionStart_next h
  exact sessionInv_ofCfg hc

theorem cfgWf_defaultCfg : cfgWf Config.defaultCfg = true := by decide

/-- Settles O12: the default configuration is well-formed. -/
theorem resetStateIsASessionStart : Obligations.ResetStateIsASessionStart :=
  ⟨sessionStart_wf cfgWf_defaultCfg, rfl, rfl, rfl⟩

/-- Settles O13: `State.reset` is the session start of a well-formed configuration. -/
theorem resetMeetsTheInvariant : Obligations.ResetMeetsTheInvariant := sessionInv_ofCfg cfgWf_defaultCfg

/-! ### The save-RAM read-out (R119) -/

theorem getElem_saveRam (s : State) {off : Nat} (h : off < (saveRam s).length) :
    (saveRam s)[off] = byteAt s .cram off := by
  simp [saveRam]

/-- A read-out is a `CRAM_INIT` of the right length, and the rest of the configuration is as it was. -/
theorem cfgWf_withSaveRam {c : Cfg} (hc : cfgWf c = true) {save : List Byte} (hlen : save.length = c.ramSize) :
    cfgWf (withSaveRam c save) = true := by
  obtain ⟨hpos, hwhole, hrom, hram, -, hboot⟩ := cfgWf_iff.mp hc
  refine cfgWf_iff.mpr ⟨hpos, hwhole, hrom, hram, fun m hm => ?_, hboot⟩
  obtain rfl := Option.some.inj hm
  exact hlen ▸ memWf_memOfBytes zeroFill save

/-- The session started with a read-out of `RAM_SIZE` bytes has them as its own read-out. -/
theorem saveRam_withSaveRam {c : Cfg} {save : List Byte} (hlen : save.length = c.ramSize) :
    saveRam (State.ofCfg (withSaveRam c save)) = save := by
  have hlen' : (saveRam (State.ofCfg (withSaveRam c save))).length = save.length := by rw [length_saveRam, hlen]; rfl
  refine List.ext_getElem hlen' fun off h h' => ?_
  rw [getElem_saveRam, byteAt_ofCfg_cram, cramFill_some rfl, ← memRead_memOfBytes zeroFill save 0 off h', Nat.zero_add]

/-- Settles O58: the read-out is a well-formed `CRAM_INIT`, and the bytes of a list come back from the array made of
it. -/
theorem saveRamReadOutSurvivesTheNextSession : Obligations.SaveRamReadOutSurvivesTheNextSession := by
  intro s hc
  have hlen := length_saveRam s
  refine ⟨hlen, fun off h => ?_, _, sessionStart_wf (cfgWf_withSaveRam hc hlen), saveRam_withSaveRam hlen⟩
  have hoff : off < (saveRam s).length := hlen ▸ h
  rw [List.getElem?_eq_getElem hoff, getElem_saveRam]

end Sys2Proof.Machine
end

section
/-! PROOF. R87, R98 to R113 and R116 to R118: the boot overlay, the IO Register Block and the host ports. -/

namespace Sys2Proof.Machine

/-! ### The boot overlay (R87, R108, R109) -/

/-- `A[7:0]` is the whole of an address up to 0x00FF (R62). -/
theorem bootOffset_eq {a : Addr} (h : a.toNat ≤ 0x00FF) : bootOffset a = a.toNat := by
  rw [bootOffset, BitVec.extractLsb'_toNat, Nat.shiftRight_zero]
  omega

/-- Settles O40: R87's offset is the address itself in the overlay's range. -/
theorem bootOverlayRead : Obligations.BootOverlayRead := by
  intro s a hs h
  refine ⟨(decode_readByte ..).trans (decodeRead_boot h), (transact_running hs).trans ?_⟩
  rw [readBoot, bootOffset_eq h, deliver]

/-- Settles O52: R109 clears the flag for 0x01 alone, and with it cleared the low window is the ROM's. -/
theorem bootFlagEndsTheOverlay : Obligations.BootFlagEndsTheOverlay := by
  intro s overlay d hs
  have hends : exec (.wrBootflag 0x01) s = .next { s with bootOverlayActive := false, response := none } := by
    refine (transact_running hs).trans ?_
    rw [bootOffField_iff.mpr rfl, Bool.not_true, Bool.and_false, complete]
  refine ⟨(decode_bootFlag overlay 0).1, (decode_bootFlag overlay d).2, transact_running hs, fun h => h ▸ hends,
    fun h => (transact_running hs).trans ?_, fun t a ht ha => ?_⟩
  · rw [Bool.eq_false_iff.mpr (mt bootOffField_iff.mp h), Bool.not_false, Bool.and_true, complete]
  · cases hends.symm.trans ht
    exact (decode_readByte ..).trans (decodeRead_rom0 (.inl rfl) ha)

/-! ### The joypad (R99 to R101) -/

theorem getLsbD_pressedMask (sel : BitVec 2) (btn : Buttons) (k : Nat) :
    (pressedMask sel btn).getLsbD k =
      ((!sel.getLsbD 0 && (directionMask btn).getLsbD k) || (!sel.getLsbD 1 && (actionMask btn).getLsbD k)) := by
  rw [pressedMask, BitVec.getLsbD_or]
  cases sel.getLsbD 0 <;> cases sel.getLsbD 1 <;> simp

/-- Bit 0 is the last of the four written. -/
theorem getLsbD_nibble (b3 b2 b1 b0 : Bool) :
    (nibble b3 b2 b1 b0).getLsbD 0 = b0 ∧ (nibble b3 b2 b1 b0).getLsbD 1 = b1 ∧ (nibble b3 b2 b1 b0).getLsbD 2 = b2 ∧
      (nibble b3 b2 b1 b0).getLsbD 3 = b3 := by
  revert b3 b2 b1 b0; decide

/-- The low nibble is active-low (the spec's own decision D12). -/
theorem getLsbD_joypValue_low (sel : BitVec 2) (btn : Buttons) {k : Nat} (h : k < 4) :
    (joypValue sel btn).getLsbD k =
      !((!sel.getLsbD 0 && (directionMask btn).getLsbD k) || (!sel.getLsbD 1 && (actionMask btn).getLsbD k)) := by
  have hbase : (0xF0 : Byte).getLsbD k = false := by revert k; decide
  rw [joypValue, BitVec.getLsbD_or, hbase, Bool.false_or, BitVec.getLsbD_setWidth, BitVec.getLsbD_not,
    getLsbD_pressedMask]
  simp [h, show k < 8 by omega]

theorem getLsbD_joypValue_high (sel : BitVec 2) (btn : Buttons) {k : Nat} (lo : 4 ≤ k) (hi : k < 8) :
    (joypValue sel btn).getLsbD k = true := by
  have hbase : (0xF0 : Byte).getLsbD k = true := by revert k; decide
  rw [joypValue, BitVec.getLsbD_or, hbase, Bool.true_or]

theorem reads_rdJoyp {s : State} {v : Byte} (hs : s.fault = none) (hv : joypValue s.joypSel s.btn = v) :
    Reads .rdJoyp s v := hv ▸ transact_running hs

/-- Settles O46: a bit of the low nibble is the complement of the mask's, which takes the bit of each selected group. -/
theorem joypadReadComposesSelectedGroups : Obligations.JoypadReadComposesSelectedGroups := by
  intro s overlay hs
  obtain ⟨right, left, up, down⟩ := getLsbD_nibble s.btn.down s.btn.up s.btn.left s.btn.right
  obtain ⟨a, b, select, start⟩ := getLsbD_nibble s.btn.start s.btn.select s.btn.b s.btn.a
  refine ⟨(decode_joypad overlay 0).1, joypValue s.joypSel s.btn, reads_rdJoyp hs rfl, ?_, ?_, ?_, ?_,
    fun k => getLsbD_joypValue_high s.joypSel s.btn⟩
  · rw [getLsbD_joypValue_low _ _ (by decide), directionMask, actionMask, right, a]
  · rw [getLsbD_joypValue_low _ _ (by decide), directionMask, actionMask, left, b]
  · rw [getLsbD_joypValue_low _ _ (by decide), directionMask, actionMask, up, select]
  · rw [getLsbD_joypValue_low _ _ (by decide), directionMask, actionMask, down, start]

/-- `D[5:4]` is `D / 16 mod 4` (R63). -/
theorem joypSelField_eq (d : Byte) : joypSelField d = BitVec.ofNat 2 (d.toNat / 16 % 4) := by
  apply BitVec.eq_of_toNat_eq
  simp [joypSelField, BitVec.extractLsb'_toNat, Nat.shiftRight_eq_div_pow]

/-- Settles O47: R101's field in numbers. -/
theorem joypadWriteStoresTheSelectBits : Obligations.JoypadWriteStoresTheSelectBits := by
  intro s overlay d hs
  exact ⟨(decode_joypad overlay d).2, (transact_running hs).trans (by rw [joypSelField_eq, complete])⟩

/-! ### Interrupt flag and enable (R102 to R105) -/

/-- Three ones over five bits are `0xE0` plus their number. -/
theorem interruptReadValue_eq (v : BitVec 5) : interruptReadValue v = BitVec.ofNat 8 (0xE0 + v.toNat) := by
  revert v; decide

/-- `D[4:0]` is `D mod 32` (R63). -/
theorem interruptField_eq (d : Byte) : interruptField d = BitVec.ofNat 5 (d.toNat % 32) := by
  apply BitVec.eq_of_toNat_eq
  simp [interruptField, BitVec.extractLsb'_toNat]

theorem reads_rdIf {s : State} {n : Nat} (hs : s.fault = none) (hn : s.ifReg.toNat = n) :
    Reads .rdIf s (BitVec.ofNat 8 (0xE0 + n)) := hn ▸ interruptReadValue_eq s.ifReg ▸ transact_running hs

theorem reads_rdIe {s : State} {n : Nat} (hs : s.fault = none) (hn : s.ieReg.toNat = n) :
    Reads .rdIe s (BitVec.ofNat 8 (0xE0 + n)) := hn ▸ interruptReadValue_eq s.ieReg ▸ transact_running hs

theorem exec_wrIf {s : State} (hs : s.fault = none) (d : Byte) :
    exec (.wrIf d) s = .next { s with ifReg := BitVec.ofNat 5 (d.toNat % 32), response := none } :=
  interruptField_eq d ▸ transact_running hs

theorem exec_wrIe {s : State} (hs : s.fault = none) (d : Byte) :
    exec (.wrIe d) s = .next { s with ieReg := BitVec.ofNat 5 (d.toNat % 32), response := none } :=
  interruptField_eq d ▸ transact_running hs

/-- Settles O48: any `D` decodes alike, and the reset value of IF is 0. -/
theorem interruptFlagReadShowsUnusedBitsAsOne : Obligations.InterruptFlagReadShowsUnusedBitsAsOne := by
  intro s overlay d hs
  exact ⟨(decode_interruptFlag overlay d).1, reads_rdIf hs rfl, fun c => reads_rdIf (s := State.ofCfg c) rfl rfl⟩

/-- Settles O49: five bits are stored, so the next read shows them. -/
theorem interruptFlagWriteStoresFiveBits : Obligations.InterruptFlagWriteStoresFiveBits := by
  intro s overlay d hs
  refine ⟨(decode_interruptFlag overlay d).2, exec_wrIf hs d, fun t ht => ?_⟩
  cases (exec_wrIf hs d).symm.trans ht
  exact reads_rdIf hs (Nat.mod_mod ..)

/-- Settles O50: IE is read and written by the functions of IF. -/
theorem interruptEnableReadAndWrite : Obligations.InterruptEnableReadAndWrite := by
  intro s overlay d hs
  exact ⟨(decode_interruptEnable overlay 0).1, (decode_interruptEnable overlay d).2, reads_rdIe hs rfl, exec_wrIe hs d⟩

/-! ### The two register arrays and unmapped IO (R106, R107, R110 to R113) -/

theorem readsSegment_rdPpureg {a : Addr} (lo : 0xFF40 ≤ a.toNat) :
    ReadsSegment (.rdPpureg a) .ppureg (a.toNat - 0xFF40) := ppuregOffset_eq lo ▸ fun _ => rfl

theorem writesSegment_wrPpureg {a : Addr} (d : Byte) (lo : 0xFF40 ≤ a.toNat) :
    WritesSegment (.wrPpureg a d) .ppureg (a.toNat - 0xFF40) d := ppuregOffset_eq lo ▸ fun _ => rfl

theorem readsSegment_rdHram {a : Addr} (lo : 0xFF80 ≤ a.toNat) :
    ReadsSegment (.rdHram a) .hram (a.toNat - 0xFF80) := hramOffset_eq lo ▸ fun _ => rfl

theorem writesSegment_wrHram {a : Addr} (d : Byte) (lo : 0xFF80 ≤ a.toNat) :
    WritesSegment (.wrHram a d) .hram (a.toNat - 0xFF80) d := hramOffset_eq lo ▸ fun _ => rfl

/-- Settles O51: the window's twelve addresses give the array's twelve offsets. -/
theorem pictureUnitRegistersAreVerbatim : Obligations.PictureUnitRegistersAreVerbatim := by
  intro s overlay a d hs lo hi
  have hin : a.toNat - 0xFF40 < 12 := by omega
  obtain ⟨hread, -⟩ := decode_pictureUnit overlay 0 ⟨lo, hi⟩
  obtain ⟨-, hwrite⟩ := decode_pictureUnit overlay d ⟨lo, hi⟩
  exact ⟨hread, hwrite, (readsSegment_rdPpureg lo).reads hin hs, (writesSegment_wrPpureg d lo).stores hin hs⟩

/-- Settles O53: the range's 127 addresses give the array's 127 offsets. -/
theorem highRamReadAndWrite : Obligations.HighRamReadAndWrite := by
  intro s overlay a d hs lo hi
  have hin : a.toNat - 0xFF80 < 127 := by omega
  obtain ⟨hread, -⟩ := decode_highRam overlay 0 ⟨lo, hi⟩
  obtain ⟨-, hwrite⟩ := decode_highRam overlay d ⟨lo, hi⟩
  exact ⟨hread, hwrite, (readsSegment_rdHram lo).reads hin hs, (writesSegment_wrHram d lo).stores hin hs⟩

/-- Settles O54: no storage is involved; a running session delivers the sentinel, and a write only completes. -/
theorem unmappedIoReadsSentinelAndDiscards : Obligations.UnmappedIoReadsSentinelAndDiscards := by
  intro s overlay a d hs h
  obtain ⟨hread, -⟩ := decode_ioUnmapped overlay 0 h
  obtain ⟨-, hwrite⟩ := decode_ioUnmapped overlay d h
  exact ⟨hread, hwrite, transact_running hs, transact_running hs⟩

/-! ### The host ports (R116 to R118) -/

/-- Settles O55: `putButton` sets the named button alone. -/
theorem setButtonChangesOneButton : Obligations.SetButtonChangesOneButton := fun s n p hs =>
  ⟨_, transact_running hs, rfl, getButton_putButton_same s.btn n p, fun _ => getButton_putButton_other s.btn p⟩

theorem readSegment_past {g : Segment} {o : Nat} (s : State) (h : segmentLength g ≤ o) :
    readSegment g o s = raiseFault (.segmentBoundsViolation g o) s := if_neg (Nat.not_lt.mpr h)

theorem readsSegment_viewOam (o : BitVec 13) : ReadsSegment (.viewOam o) .oam o.toNat := fun _ => rfl

/-- Two operations that read the same byte of a segment are the same operation. -/
theorem ReadsSegment.exec_eq {i j : Instr} {g : Segment} {o : Nat} (hi : ReadsSegment i g o) (hj : ReadsSegment j g o)
    (s : State) : exec i s = exec j s := (hi s).trans (hj s).symm

/-- Settles O56: the view's offset is the bus read's. -/
theorem viewOfVideoEqualsBusRead : Obligations.ViewOfVideoEqualsBusRead := by
  intro s o hs
  have ho : o.toNat < 0x2000 := o.isLt
  have hview : ReadsSegment (.viewVram o) .vram o.toNat := fun _ => rfl
  have haddr : (BitVec.ofNat 16 (0x8000 + o.toNat)).toNat = 0x8000 + o.toNat := Nat.mod_eq_of_lt (by omega)
  have hbus := readsSegment_rdVram (a := BitVec.ofNat 16 (0x8000 + o.toNat)) (by omega)
  rw [haddr, Nat.add_sub_cancel_left] at hbus
  exact ⟨hview.reads ho hs, hview.exec_eq hbus s⟩

/-- Settles O57: as O56 below the segment's 160 bytes; past them the segment primitive raises. -/
theorem viewOfObjectMemoryChecksItsBound : Obligations.ViewOfObjectMemoryChecksItsBound := by
  intro s o hs
  have ho : o.toNat < 0x2000 := o.isLt
  refine ⟨fun hin => ⟨(readsSegment_viewOam o).reads hin hs, ?_⟩, fun hpast =>
    (transact_running hs).trans (congrArg _ (readSegment_past s hpast))⟩
  have haddr : (BitVec.ofNat 16 (0xFE00 + o.toNat)).toNat = 0xFE00 + o.toNat := Nat.mod_eq_of_lt (by omega)
  have hbus := readsSegment_rdOam (a := BitVec.ofNat 16 (0xFE00 + o.toNat)) (by omega)
  rw [haddr, Nat.add_sub_cancel_left] at hbus
  exact (readsSegment_viewOam o).exec_eq hbus s

end Sys2Proof.Machine
end

section
/-! PROOF. R53 and R137: a write read back, and what every address reads as right after session start. -/

namespace Sys2Proof.Machine

/-! ### The addresses that a byte of a segment answers for (R62, R86) -/

/-- The read and the write column both give address `a` byte `o` of segment `g`. -/
structure AnswersFor (g : Segment) (o : Nat) (a : Addr) : Prop where
  inside : o < segmentLength g
  read : ∀ overlay, ReadsSegment (decodeRead overlay a) g o
  write : ∀ d, WritesSegment (decodeWrite a d) g o d

/-- From a row of the decode table. -/
theorem AnswersFor.of_row {g : Segment} {o : Nat} {a : Addr} {i : Instr} {j : Byte → Instr}
    (hrow : ∀ overlay d, decode overlay (.bus (busWord false a d)) = i ∧ decode overlay (.bus (busWord true a d)) = j d)
    (hi : ReadsSegment i g o) (hj : ∀ d, WritesSegment (j d) g o d) (ho : o < segmentLength g) : AnswersFor g o a where
  inside := ho
  read overlay := by rw [← decode_readWord overlay a 0, (hrow overlay 0).1]; exact hi
  write d := by rw [← decode_writeWord false, (hrow false d).2]; exact hj d

/-- The ranges of the segments, the echo range, the picture-unit window and the high RAM. -/
theorem exists_answersFor {a : Addr}
    (h : (0x8000 ≤ a.toNat ∧ a.toNat ≤ 0x9FFF) ∨ (0xC000 ≤ a.toNat ∧ a.toNat ≤ 0xFE9F) ∨
      (0xFF40 ≤ a.toNat ∧ a.toNat ≤ 0xFF4B) ∨ (0xFF80 ≤ a.toNat ∧ a.toNat ≤ 0xFFFE)) :
    ∃ g o, AnswersFor g o a := by
  have hrows : (0x8000 ≤ a.toNat ∧ a.toNat ≤ 0x9FFF) ∨ (0xC000 ≤ a.toNat ∧ a.toNat ≤ 0xDFFF) ∨
      (0xE000 ≤ a.toNat ∧ a.toNat ≤ 0xFDFF) ∨ (0xFE00 ≤ a.toNat ∧ a.toNat ≤ 0xFE9F) ∨
      (0xFF40 ≤ a.toNat ∧ a.toNat ≤ 0xFF4B) ∨ (0xFF80 ≤ a.toNat ∧ a.toNat ≤ 0xFFFE) := by omega
  rcases hrows with h | h | h | h | h | h
  · exact ⟨.vram, _, .of_row (decode_video · · h) (readsSegment_rdVram h.1) (writesSegment_wrVram · h.1)
      (by rw [segmentLength]; omega)⟩
  · exact ⟨.wram, _, .of_row (decode_work · · h) (readsSegment_rdWram h.1) (writesSegment_wrWram · h.1)
      (by rw [segmentLength]; omega)⟩
  · exact ⟨.wram, _, .of_row (decode_echo · · h) (readsSegment_rdEcho h.1) (writesSegment_wrEcho · h.1)
      (by rw [segmentLength]; omega)⟩
  · exact ⟨.oam, _, .of_row (decode_objectAttribute · · h) (readsSegment_rdOam h.1) (writesSegment_wrOam · h.1)
      (by rw [segmentLength]; omega)⟩
  · exact ⟨.ppureg, _, .of_row (decode_pictureUnit · · h) (readsSegment_rdPpureg h.1) (writesSegment_wrPpureg · h.1)
      (by rw [segmentLength]; omega)⟩
  · exact ⟨.hram, _, .of_row (decode_highRam · · h) (readsSegment_rdHram h.1) (writesSegment_wrHram · h.1)
      (by rw [segmentLength]; omega)⟩

/-! ### A write read back (R53) -/

theorem AnswersFor.reads_written {g : Segment} {o : Nat} {a : Addr} {d : Byte} {s t : State} (h : AnswersFor g o a)
    (ht : exec (decodeWrite a d) s = .next t) (overlay : Bool) : Reads (decodeRead overlay a) t d :=
  have hs := running_of_exec ht
  (h.read overlay).reads_stored h.inside hs ((h.write d).stores h.inside hs) ht

/-- A store leaves the RAM in reach at the same offset. -/
theorem reads_rdCram_written {a : Addr} {d : Byte} {s t : State} (hr : ramReachable s.cfg s.bank = true)
    (ht : exec (.wrCram a d) s = .next t) : Reads (.rdCram a) t d := by
  have hs := running_of_exec ht
  obtain ⟨u, hu, hstore⟩ := stores_wrCram hs a d hr
  cases hu.symm.trans ht
  have hread := reads_rdCram_reachable (hstore.regs.fault.trans hs) a (by rwa [hstore.regs.cfg, hstore.regs.bank])
  rwa [hstore.regs.cfg, hstore.regs.bank, hstore.stored] at hread

/-- Settles O24: each storing range is a segment's or the reachable cartridge RAM's, where read and write share the
offset. -/
theorem writeIsVisibleToTheVeryNextRead : Obligations.WriteIsVisibleToTheVeryNextRead := by
  intro s t overlay a d _ hrange ht
  by_cases hcram : 0xA000 ≤ a.toNat ∧ a.toNat ≤ 0xBFFF
  · have hr : ramReachable s.cfg s.bank = true := by
      rcases hrange with h | h | h | h | ⟨-, -, h⟩
      case inr.inr.inr.inr => exact ramReachable_iff.mpr h
      all_goals omega
    obtain ⟨hread, hwrite⟩ := decode_cartridgeRam overlay d hcram
    rw [decode_readWord] at hread
    rw [decode_writeWord] at hwrite
    rw [hread]
    exact reads_rdCram_written hr (hwrite ▸ ht)
  · obtain ⟨g, o, h⟩ := exists_answersFor (a := a) (by omega)
    exact h.reads_written ht overlay

/-! ### Right after session start (R137) -/

/-- The RAM window's bank, and so the low ROM window's, is 0 at session start under either variant. -/
theorem ramBank_ofCfg (c : Cfg) : ramBank c (State.ofCfg c).bank = 0 := ramBank_of_secondary_zero c rfl

theorem bound_zero (p : BankBound) (n : Nat) : bound p 0 n = 0 := Nat.le_zero.mp (bound_le p 0 n)

theorem romOffset_ofCfg_low (c : Cfg) {a : Addr} (h : a.toNat ≤ 0x3FFF) :
    romOffset c (State.ofCfg c).bank a = a.toNat := by
  rw [romOffset, romBank_low _ _ h, ramBank_ofCfg, bound_zero, romBankOffset_eq_mod]
  omega

theorem romBank_ofCfg_high (c : Cfg) {a : Addr} (h : 0x4000 ≤ a.toNat) : romBank c (State.ofCfg c).bank a = 1 := by
  rw [romBank_high c _ h]
  exact ite_self 1

/-- A ROM of 16 KiB has bank 0 alone, which then shows in both windows. -/
theorem romOffset_ofCfg_high {c : Cfg} (hc : cfgWf c = true) {a : Addr} (lo : 0x4000 ≤ a.toNat)
    (hi : a.toNat ≤ 0x7FFF) :
    romOffset c (State.ofCfg c).bank a = if c.romSize = 0x4000 then a.toNat - 0x4000 else a.toNat := by
  obtain ⟨hpos, hwhole⟩ := cfgWf_romSize hc
  rw [romOffset, romBank_ofCfg_high c lo, romBankOffset_eq_mod]
  split
  case isTrue hone =>
    have hbank := bound_lt c.bankBound 1 (romBankCount_pos hc)
    rw [romBankCount] at hbank ⊢
    omega
  case isFalse hmore =>
    rw [bound_of_lt c.bankBound (by rw [romBankCount]; omega)]
    omega

theorem ramOffset_ofCfg (c : Cfg) {a : Addr} (h : 0xA000 ≤ a.toNat) :
    ramOffset c (State.ofCfg c).bank a = (a.toNat - 0xA000) % min c.ramSize 8192 := by
  rw [ramOffset, ramBank_ofCfg, bound_zero, cramWindowOffset_eq h, ramWindow, Nat.zero_mul, Nat.zero_add]

theorem ramReachable_ofCfg {c : Cfg} :
    ramReachable c (State.ofCfg c).bank = true ↔ c.ramSize ≠ 0 ∧ c.mbc = .none := by
  rw [ramReachable_iff]
  cases c.mbc <;> simp [State.ofCfg]

theorem AnswersFor.reads_ofCfg {g : Segment} {o : Nat} {a : Addr} (h : AnswersFor g o a) (overlay : Bool) (c : Cfg) :
    Reads (decodeRead overlay a) (State.ofCfg c) 0x00 :=
  byteAt_ofCfg_seg c g o ▸ (h.read overlay).reads h.inside rfl

/-- Nothing is pressed at session start, so every bit reads 1. -/
theorem joypValue_ofCfg (c : Cfg) : joypValue (State.ofCfg c).joypSel (State.ofCfg c).btn = 0xFF :=
  (by decide : joypValue 0b11 (State.ofCfg Config.defaultCfg).btn = 0xFF)

/-- The unusable range, the joypad with nothing pressed, the boot flag and unmapped IO. -/
theorem reads_ofCfg_sentinel (overlay : Bool) (c : Cfg) {a : Addr}
    (h : (0xFEA0 ≤ a.toNat ∧ a.toNat ≤ 0xFF0E) ∨ (0xFF10 ≤ a.toNat ∧ a.toNat ≤ 0xFF3F) ∨
      (0xFF4C ≤ a.toNat ∧ a.toNat ≤ 0xFF7F)) : Reads (decodeRead overlay a) (State.ofCfg c) 0xFF := by
  have hs := regionOf_spec a
  unfold decodeRead
  generalize regionOf a = r at hs ⊢
  cases hs
  case unusable | ioUnmapped1 | ioUnmapped2 | ioUnmapped3 | ioUnmapped4 | bootFlag =>
    exact transact_running (s := State.ofCfg c) rfl
  case joypad => exact reads_rdJoyp (s := State.ofCfg c) rfl (joypValue_ofCfg c)
  all_goals omega

/-- Settles O11: each range by its row of the read column, with the offsets and the bytes of the reset values. -/
theorem readsRightAfterSessionStart : Obligations.ReadsRightAfterSessionStart := by
  intro c a hc s i
  have hi : i = decodeRead c.bootPresent a := decode_readByte ..
  rw [hi]
  refine ⟨fun h hboot => ?_, fun h hboot => ?_, fun lo h => ?_, fun lo h => ?_, fun lo h hout => ?_,
    fun lo h hnone hram => ?_, fun h => ?_, fun h => ?_, reads_ofCfg_sentinel _ c, ?_, ?_⟩
  · rw [hboot, decodeRead_boot h]
    exact (bootOverlayRead s a rfl h).2
  · rw [decodeRead_rom0 (.inl hboot) (by omega), ← romOffset_ofCfg_low c (by omega)]
    exact reads_rdRom0 hc rfl a
  · rw [decodeRead_rom0 (.inr lo) h, ← romOffset_ofCfg_low c h]
    exact reads_rdRom0 hc rfl a
  · rw [decodeRead_romX _ lo h, ← romOffset_ofCfg_high hc lo h]
    exact reads_rdRomX hc rfl a
  · rw [(decode_readWord ..).symm.trans (decode_cartridgeRam _ 0 ⟨lo, h⟩).1]
    have hr : ¬ramReachable c (State.ofCfg c).bank = true := by
      rw [ramReachable_ofCfg]
      rcases hout with htype | hzero <;> simp [*]
    exact reads_rdCram_unreachable (s := State.ofCfg c) rfl a hr
  · rw [(decode_readWord ..).symm.trans (decode_cartridgeRam _ 0 ⟨lo, h⟩).1, ← ramOffset_ofCfg c lo]
    have hr : ramReachable c (State.ofCfg c).bank = true := ramReachable_ofCfg.mpr ⟨Nat.ne_of_gt hram, hnone⟩
    exact reads_rdCram_reachable (s := State.ofCfg c) rfl a hr
  · obtain ⟨g, o, hseg⟩ := exists_answersFor (a := a) (by omega)
    exact hseg.reads_ofCfg _ c
  · obtain ⟨g, o, hseg⟩ := exists_answersFor (a := a) (by omega)
    exact hseg.reads_ofCfg _ c
  · rintro rfl
    exact reads_rdIf (s := State.ofCfg c) rfl rfl
  · rintro rfl
    exact reads_rdIe (s := State.ofCfg c) rfl rfl

end Sys2Proof.Machine
end
